-- ==== Sys2Proof/Word.lean ====
section
/-! DEFINITION. The widths of the block (00_scope R5, 30_encoding R90 and R96). Every quantity is an unsigned
integer; bits are numbered from 0 at the least significant end (00_scope R7). -/

namespace Sys2Proof

/-- The unit of storage and transfer, 8 bits (R5). -/
abbrev Byte := BitVec 8

/-- `IW` and `AW`: an index, a count, a length, an operand, a `TXMEM` address, 16 bits (R5). -/
abbrev Word := BitVec 16

/-- A command word, 40 bits: `op[39:32] ‖ A[31:16] ‖ B[15:0]` (R90). -/
abbrev Cmd := BitVec 40

/-- The result word `RES`, 24 bits: `status[23:16] ‖ value[15:0]` (R96). -/
abbrev ResWord := BitVec 24

/-- A boolean as a value field: 1 for true, 0 for false (R96: "a boolean (0 or 1)"). -/
abbrev flagWord (b : Bool) : Word := if b then 1#16 else 0#16

end Sys2Proof
end

