-- ==== Sys2Proof/Syntax.lean ====
section
/-! DEFINITION. The fifteen operations (30_encoding R93), one constructor for each row of the opcode table, with
the operands their formats name (R91, R92), and the two ports (R90, R94). -/

namespace Sys2Proof

/-- The mode operand and the register `ch.mode`: 0 `BLOCKING`, 1 `NONBLOCKING` (10_state R31). -/
inductive Mode where
  | blocking
  | nonblocking
  deriving DecidableEq, Repr

/-- The two command ports: `P` the interrupt context's, `C` the mainline's (30_encoding R90). -/
inductive Port where
  | P
  | C
  deriving DecidableEq, Repr

/-- One operation with its operands (R93). -/
inductive Instr where
  /-- `PUSH imm8`, port P (R120). -/
  | push (b : Byte)
  /-- `TXEV`, port P (R172). -/
  | txev
  /-- `COUNT`, port C (R130). -/
  | count
  /-- `ISOVF`, port C (R131). -/
  | isovf
  /-- `RDNB imm16`, port C (R134). -/
  | rdnb (max : Word)
  /-- `READ imm16`, port C (R135). -/
  | read (max : Word)
  /-- `READF imm16`, port C (R136). -/
  | readf (max : Word)
  /-- `RDLINE imm16`, port C (R137). -/
  | rdline (maxSize : Word)
  /-- `PEEKLN`, port C (R138). -/
  | peekln
  /-- `CLEAR`, port C (R141). -/
  | clear
  /-- `START addr16, len16`, port C (R171). -/
  | start (addr len : Word)
  /-- `ISFIN`, port C (R173). -/
  | isfin
  /-- `CLRTX`, port C (R174). -/
  | clrtx
  /-- `SETMODE m`, port C (R190). -/
  | setmode (m : Mode)
  /-- `SETDELIM imm8`, port C (R191). -/
  | setdelim (b : Byte)
  deriving DecidableEq, Repr

/-- The port an operation is legal at (R94). -/
def Instr.port : Instr → Port
  | .push _ | .txev => .P
  | .count | .isovf | .rdnb _ | .read _ | .readf _ | .rdline _ | .peekln | .clear => .C
  | .start _ _ | .isfin | .clrtx | .setmode _ | .setdelim _ => .C

end Sys2Proof
end

