-- ==== Sys2Proof/WellFormed.lean ====
section
/-! DEFINITION. The operand values an operation's own rule refuses (30_encoding R95): `RDLINE` with
`max_size == 0` (R137) and `START` with `addr16 + len16 > 0x10000` (R171). Every other combination of operands is
a legal command. An ill-formed instruction has an encoding all the same, decodes, and completes `(ILLEGAL, 0)`. -/

namespace Sys2Proof

/-- `max_size == 0` leaves no room for the terminator (R137, D14). -/
def rdlineLegal (maxSize : Word) : Bool := maxSize.toNat ≠ 0

/-- The buffer does not run past the end of `TXMEM` (R62, R171, D6). -/
def startLegal (addr len : Word) : Bool := addr.toNat + len.toNat ≤ 0x10000

/-- No operand is refused by the operation's own rule (R95). -/
def Instr.wellFormed : Instr → Bool
  | .rdline maxSize => rdlineLegal maxSize
  | .start addr len => startLegal addr len
  | .push _ | .txev | .count | .isovf | .rdnb _ | .read _ | .readf _ | .peekln | .clear => true
  | .isfin | .clrtx | .setmode _ | .setdelim _ => true

end Sys2Proof
end

