-- ==== Sys2Proof/Decode.lean ====
section
/-! DEFINITION. Decoding and encoding of command words (30_encoding R90 to R93, R95). The opcode map is a list of
rows as R93 prints it; a word selects the row with its opcode, and every bit the row's format reserves must be 0.
Port legality (R94) is not part of the word and is checked where a command is presented (Machine/Ports.lean). -/

namespace Sys2Proof

/-- The five formats of R91. -/
inductive Format where
  | Z
  | B8
  | B16
  | AB
  | M1
  deriving DecidableEq, Repr

/-- The mask of a format: the opcode bits and the reserved bits (R91, last column). -/
def Format.mask : Format → Cmd
  | .Z => 0xFFFFFFFFFF#40
  | .B8 => 0xFFFFFFFF00#40
  | .B16 => 0xFFFFFF0000#40
  | .AB => 0xFF00000000#40
  | .M1 => 0xFFFFFFFFFE#40

/-- Why a command word is no operation (R95). -/
inductive Reject where
  /-- The opcode is none of the fifteen. -/
  | reservedOpcode
  /-- A bit the format reserves is not 0. -/
  | reservedBits
  deriving DecidableEq, Repr

/-- `op = cmd[39:32]` (R90). -/
def opField (w : Cmd) : BitVec 8 := w.extractLsb' 32 8

/-- `A = cmd[31:16]`, the operand `addr16` (R90, R92). -/
def aField (w : Cmd) : Word := w.extractLsb' 16 16

/-- `B = cmd[15:0]`, the operands `imm16` and `len16` (R90, R92). -/
def bField (w : Cmd) : Word := w.extractLsb' 0 16

/-- `imm8 = cmd[7:0]` (R92). -/
def imm8Field (w : Cmd) : Byte := w.extractLsb' 0 8

/-- `m = cmd[0]`: 0 `BLOCKING`, 1 `NONBLOCKING` (R92). -/
def modeField (w : Cmd) : Mode := if w.extractLsb' 0 1 = 1#1 then .nonblocking else .blocking

/-- A row of the opcode map of R93: opcode, format, and the operation read from a word of that format. -/
structure Row where
  op : BitVec 8
  format : Format
  read : Cmd → Instr

/-- `match`: the word of the row with every operand bit zero (R93). -/
def Row.matchWord (r : Row) : Cmd := (r.op ++ (0#32) : BitVec 40)

/-- The opcode map of R93, in its order. -/
def rows : List Row := [
  ⟨0x01#8, .B8, fun w => .push (imm8Field w)⟩,
  ⟨0x02#8, .Z, fun _ => .txev⟩,
  ⟨0x10#8, .Z, fun _ => .count⟩,
  ⟨0x11#8, .Z, fun _ => .isovf⟩,
  ⟨0x12#8, .B16, fun w => .rdnb (bField w)⟩,
  ⟨0x13#8, .B16, fun w => .read (bField w)⟩,
  ⟨0x14#8, .B16, fun w => .readf (bField w)⟩,
  ⟨0x15#8, .B16, fun w => .rdline (bField w)⟩,
  ⟨0x16#8, .Z, fun _ => .peekln⟩,
  ⟨0x17#8, .Z, fun _ => .clear⟩,
  ⟨0x20#8, .AB, fun w => .start (aField w) (bField w)⟩,
  ⟨0x21#8, .Z, fun _ => .isfin⟩,
  ⟨0x22#8, .Z, fun _ => .clrtx⟩,
  ⟨0x30#8, .M1, fun w => .setmode (modeField w)⟩,
  ⟨0x31#8, .B8, fun w => .setdelim (imm8Field w)⟩]

/-- The operation a command word stands for, or why it stands for none (R93, R95). -/
def decode (w : Cmd) : Except Reject Instr :=
  match rows.find? (fun r => r.op == opField w) with
  | none => .error .reservedOpcode
  | some r => if w &&& r.format.mask = r.matchWord then .ok (r.read w) else .error .reservedBits

/-- The decoder on an instruction's bits as spec/opcode_table.json numbers them. The table gives every row 40
bits, one command word, whose bit 0 is the table's bit 0. -/
def decodeTableWord (nbits w : Nat) : Option Instr :=
  match decode (BitVec.ofNat 40 (w % 2 ^ nbits)) with
  | .ok i => some i
  | .error _ => none

/-- The opcode of an operation (R93, column `op`). -/
def Instr.opcode : Instr → BitVec 8
  | .push _ => 0x01#8
  | .txev => 0x02#8
  | .count => 0x10#8
  | .isovf => 0x11#8
  | .rdnb _ => 0x12#8
  | .read _ => 0x13#8
  | .readf _ => 0x14#8
  | .rdline _ => 0x15#8
  | .peekln => 0x16#8
  | .clear => 0x17#8
  | .start _ _ => 0x20#8
  | .isfin => 0x21#8
  | .clrtx => 0x22#8
  | .setmode _ => 0x30#8
  | .setdelim _ => 0x31#8

/-- The format of an operation (R93, column `format`). -/
def Instr.format : Instr → Format
  | .push _ | .setdelim _ => .B8
  | .txev | .count | .isovf | .peekln | .clear | .isfin | .clrtx => .Z
  | .rdnb _ | .read _ | .readf _ | .rdline _ => .B16
  | .start _ _ => .AB
  | .setmode _ => .M1

/-- The field `A = cmd[31:16]` of an operation's word: the address of `START`, 0 elsewhere (R91). -/
def Instr.aWord : Instr → Word
  | .start addr _ => addr
  | .push _ | .txev | .count | .isovf | .rdnb _ | .read _ | .readf _ | .rdline _ | .peekln | .clear => 0#16
  | .isfin | .clrtx | .setmode _ | .setdelim _ => 0#16

/-- The mode as the bit `m` (R92). -/
def Mode.bit : Mode → BitVec 1
  | .blocking => 0#1
  | .nonblocking => 1#1

/-- The field `B = cmd[15:0]` of an operation's word (R91). -/
def Instr.bWord : Instr → Word
  | .push b | .setdelim b => b.setWidth 16
  | .rdnb max | .read max | .readf max | .rdline max => max
  | .start _ len => len
  | .setmode m => m.bit.setWidth 16
  | .txev | .count | .isovf | .peekln | .clear | .isfin | .clrtx => 0#16

/-- The command word of an operation: `op ‖ A ‖ B` (R90). -/
def encode (i : Instr) : Cmd := (i.opcode ++ (i.aWord ++ i.bWord) : BitVec 40)

end Sys2Proof
end

