-- ==== Sys2Proof/Config.lean ====
section
/-! DEFINITION. What is fixed at construction (00_scope R5, 10_state R39), the values a register or an unwritten
byte has at reset, and the free values. -/

namespace Sys2Proof

/-- The construction parameters `N`, `K`, `HAS_TIMEOUT` (R5). -/
structure Params where
  /-- `N`, the number of byte slots of the ring. -/
  n : Nat
  /-- `K`, the burst size: the largest number of bytes one transmit-slot event pushes. -/
  k : Nat
  /-- `HAS_TIMEOUT`, whether a timeout predicate is supplied. -/
  hasTimeout : Bool
  deriving DecidableEq, Repr

/-- The ranges of R5: `2 <= N <= 65536` and `1 <= K <= 65535`. -/
abbrev Params.wf (p : Params) : Prop := (2 ≤ p.n ∧ p.n ≤ 65536) ∧ (1 ≤ p.k ∧ p.k ≤ 65535)

namespace Config

/-- The parameters of `State.reset`. DESIGN CHOICE (log 1), unsafe for a claim about `State.reset` alone: the
spec fixes no value, and a claim about every `Params` speaks of `State.construct`. -/
def resetParams : Params := { n := 4, k := 1, hasTimeout := true }

/-- `DELIM_RESET`, "default newline" (R5, R38). PRESUMED by the spec's own mark (GK2, log 12), unsafe: that
newline is the byte 0x0A. -/
def delimReset : Byte := 0x0A#8

/-- `MODE_RESET` (R5, R38). -/
def modeReset : Mode := .blocking

/-- The terminator of `RDLINE` (R137, D33). PRESUMED by the spec's own mark (GK3, log 12), unsafe: that `\0` is
the byte 0x00. -/
def terminator : Byte := 0x00#8

/-- `tx.base` at reset. DESIGN CHOICE (log 2), unsafe: R38 leaves it unspecified. -/
def txBaseReset : Word := 0x0000#16

/-- `RES` at reset. DESIGN CHOICE (log 3), unsafe: R38 leaves it unspecified until the first completion. -/
def resReset : ResWord := 0x000000#24

/-- What a byte of `TXMEM` reads as while ENV has written nothing there. DESIGN CHOICE (log 4), unsafe: the
contents of `TXMEM` are the environment's (R60). -/
def txmemUnwritten : Byte := 0x00#8

/-- The number of addresses of `TXMEM`, `2^16` (R60). -/
def txmemSize : Nat := 65536

/-- A FREE VALUE (log 8): the environment's answer to the call of the timeout predicate number `k` among those
for which no answer is listed in `State.answers`, "a draw under no law" (30_encoding R101). -/
opaque freeTimeout (k : Nat) : Bool

end Config
end Sys2Proof
end

