-- ==== Sys2Proof/Machine/State.lean ====
section
/-! DEFINITION. The state of one block (10_state R20, R34, R35), the environment's inputs as plain data, the
reasons a step can stop, and the state after reset (10_state R38). -/

namespace Sys2Proof.Machine

/-- Bytes at addresses: addresses strictly rising, a byte that nothing has written not listed. -/
abbrev Memory := List Host.Cell

/-- The ReceiveRing (R20 to R24). -/
structure Ring where
  /-- `ring.storage`: the slots that a `PUSH` has written, by index (R21, R38). -/
  storage : Memory
  /-- `ring.rd`, the read index (R22). -/
  rd : Word
  /-- `ring.wr`, the write index (R23). -/
  wr : Word
  /-- `ring.ovf`, the sticky overflow flag (R24). -/
  ovf : Bool
  deriving DecidableEq, Repr

/-- The TransmitSequencer (R26 to R29). -/
structure Tx where
  /-- `tx.base`, the `TXMEM` address of the borrowed buffer (R26). -/
  base : Word
  /-- `tx.len`, the number of bytes of the current or last transmission (R27). -/
  len : Word
  /-- `tx.sent`, the number of them already pushed (R28). -/
  sent : Word
  /-- `tx.fin`, true in `Idle`, false in `Sending` (R29). -/
  fin : Bool
  deriving DecidableEq, Repr

/-- The Channel's control registers (R31, R32). -/
structure Chan where
  /-- `ch.mode` (R31). -/
  mode : Mode
  /-- `ch.delim` (R32). -/
  delim : Byte
  deriving DecidableEq, Repr

/-- `cop`, the C-port operation context (R34): `IDLE`, or operation, operand, label and the local variables that
have a value at that label. One constructor for each label of 41_ring_consumer R134 to R137 and
42_transmit_sequencer R171. -/
inductive Cop where
  /-- `IDLE`: port C is free. -/
  | idle
  /-- `RDNB`, label `S`. -/
  | rdnbS (max : Word)
  /-- `RDNB`, label `D`. -/
  | rdnbD (max n cnt : Word)
  /-- `READ`, label `W`. -/
  | readW (max : Word)
  /-- `READ`, label `D`. -/
  | readD (max cnt : Word)
  /-- `READF`, label `F`. -/
  | readfF (max total : Word)
  /-- `READF`, label `W`. -/
  | readfW (max total cnt : Word)
  /-- `READF`, label `D`. -/
  | readfD (max total cnt : Word)
  /-- `RDLINE`, label `L`. -/
  | rdlineL (maxSize cnt : Word)
  /-- `START`, label `S0`. -/
  | startS0 (addr len : Word)
  /-- `START`, label `S1`. -/
  | startS1 (addr len : Word)
  deriving DecidableEq, Repr

/-- The status of a result (30_encoding R96). -/
inductive Status where
  | ok
  | busy
  | overflow
  | timeout
  | badline
  | illegal
  deriving DecidableEq, Repr

/-- One line of a schedule (30_encoding R102): what happens next, from outside the block. -/
inductive Input where
  /-- `P: <command>`: the interrupt context presents a command word at port P. -/
  | cmdP (w : Cmd)
  /-- `C: <command>`: the mainline presents a command word at port C. -/
  | cmdC (w : Cmd)
  /-- `C.step`: the operation in progress at port C takes its next atomic step. -/
  | stepC
  /-- `ENV: TXMEM[a] <- b`: the environment writes a byte of `TXMEM`. -/
  | envWrite (a : Word) (b : Byte)
  deriving DecidableEq, Repr

/-- The whole state (R20, R34, R35), the parameters of the construction, `TXMEM`, and the inputs. -/
structure State where
  /-- `N`, `K`, `HAS_TIMEOUT`: constants that no step changes (R39; log 1). -/
  cfg : Params
  ring : Ring
  tx : Tx
  ch : Chan
  cop : Cop
  /-- `RES`, the result word of the last completed C-port operation (R35). -/
  res : ResWord
  /-- `OUT`, the bytes handed to the mainline, oldest first (R35). -/
  out : List Byte
  /-- `TXD`, the bytes pushed to the Transceiver, oldest first (R35). -/
  txd : List Byte
  /-- `TXMEM`, owned by the environment (R60). -/
  txmem : Memory
  /-- The model's own (log 6): the schedule, what happens next first. -/
  schedule : List Input
  /-- The model's own (log 8): the coming answers of the timeout predicate, next first. -/
  answers : List Bool
  /-- The model's own (log 8): how many free answers have been taken. -/
  draws : Nat
  deriving DecidableEq, Repr

/-- Why the machine stops. No run from reset reaches a fault; each is safe. -/
inductive Fault where
  /-- Raised by `RingRead` of a slot that no `PUSH` has written: R38 asks for a fault of the model (log 5). Safe. -/
  | ringSlotUnwritten
  /-- Raised by `RingRead` and `RingWrite` of an index outside `[0, N)`, which R61 says cannot occur (log 10). Safe. -/
  | ringIndexOutOfRange
  /-- Raised by `MemRead` above `0xFFFF`, which R62 says cannot occur (log 10). Safe. -/
  | txmemOutOfRange
  deriving DecidableEq, Repr

/-- Why an input has no meaning. -/
inductive Refusal where
  /-- Raised by a refused arm of `exec` alone: the instruction has no meaning yet. Safe. -/
  | notModelled (mnemonic : String)
  /-- Raised where a command is presented at port C, or executed, while another operation is in progress there:
  R34, R232 and D29 refuse it (log 9). Safe. -/
  | portCBusy
  deriving DecidableEq, Repr

/-- The state right after the construction of a Channel with the parameters `p` (R38, R230). -/
def State.construct (p : Params) : State where
  cfg := p
  ring := { storage := [], rd := 0#16, wr := 0#16, ovf := false }
  tx := { base := Config.txBaseReset, len := 0#16, sent := 0#16, fin := true }
  ch := { mode := Config.modeReset, delim := Config.delimReset }
  cop := .idle
  res := Config.resReset
  out := []
  txd := []
  txmem := []
  schedule := []
  answers := []
  draws := 0

/-- The machine right after reset (R38), with the parameters of log 1. -/
def State.reset : State := State.construct Config.resetParams

end Sys2Proof.Machine
end

