-- ==== Sys2Proof/Machine/Operands.lean ====
section
/-! DEFINITION. The index, count and address arithmetic of the operations (00_scope R7, 10_state R25, 20_memory
R61 and R62, 42_transmit_sequencer R172), and what the port-C context holds. -/

namespace Sys2Proof.Machine

/-- `(a - b) mod n`, the mathematical residue in `[0, n)` also when `a < b` (R7). -/
def residue (a b n : Nat) : Nat := (((a : Int) - (b : Int)) % (n : Int)).toNat

/-- `(i + 1) mod N`, the index after `i` with wraparound (R22, R23). -/
def nextIndex (n : Nat) (i : Word) : Word := BitVec.ofNat 16 ((i.toNat + 1) % n)

/-- The number of stored bytes, `(ring.wr - ring.rd) mod N` (R25). -/
def State.count (s : State) : Nat := residue s.ring.wr.toNat s.ring.rd.toNat s.cfg.n

/-- The ring is empty exactly when `ring.rd == ring.wr` (R25; 90_conflicts C1). -/
def State.ringEmpty (s : State) : Bool := s.ring.rd == s.ring.wr

/-- The ring is full when `(ring.wr + 1) mod N == ring.rd` (R25). -/
def State.ringFull (s : State) : Bool := nextIndex s.cfg.n s.ring.wr == s.ring.rd

/-- The effective index of the stored byte number `k`, oldest first: `(ring.rd + k) mod N` (R61). -/
def State.slotAt (s : State) (k : Nat) : Nat := (s.ring.rd.toNat + k) % s.cfg.n

/-- `min(max, avail)` of `RDNB` (R134). -/
def State.batch (s : State) (max : Word) : Nat := min max.toNat s.count

/-- The effective address of the byte at offset `j` of the current transmission: `tx.base + j` (R62). -/
def State.txAddr (s : State) (j : Nat) : Nat := s.tx.base.toNat + j

/-- `min(K, tx.len - tx.sent)`, the bytes one transmit-slot event pushes (R172). -/
def State.burst (s : State) : Nat := min s.cfg.k (s.tx.len.toNat - s.tx.sent.toNat)

/-- A local counter after one more byte (`cnt <- cnt + 1`; 16 bits, R34). -/
def bump (cnt : Word) : Word := cnt + 1#16

/-- The operation in progress, with its operand (R34). -/
def Cop.instr? : Cop → Option Instr
  | .idle => none
  | .rdnbS max | .rdnbD max _ _ => some (.rdnb max)
  | .readW max | .readD max _ => some (.read max)
  | .readfF max _ | .readfW max _ _ | .readfD max _ _ => some (.readf max)
  | .rdlineL maxSize _ => some (.rdline maxSize)
  | .startS0 addr len | .startS1 addr len => some (.start addr len)

/-- The code of a status in `RES[23:16]` (30_encoding R96). -/
def Status.code : Status → BitVec 8
  | .ok => 0x00#8
  | .busy => 0x01#8
  | .overflow => 0x02#8
  | .timeout => 0x03#8
  | .badline => 0x04#8
  | .illegal => 0xFF#8

/-- `RES = status ‖ value` (R96). -/
def resultWord (st : Status) (value : Word) : ResWord := (st.code ++ value : BitVec 24)

/-- `status = RES[23:16]` (R96). -/
def resStatus (r : ResWord) : BitVec 8 := r.extractLsb' 16 8

/-- `value = RES[15:0]` (R96). -/
def resValue (r : ResWord) : Word := r.extractLsb' 0 16

end Sys2Proof.Machine
end

