-- ==== Sys2Proof/Machine/Flags.lean ====
section
/-! DEFINITION. The two flags of the block (10_state R36): how `ring.ovf` and `tx.fin` are set and cleared. -/

namespace Sys2Proof.Machine

/-- `ring.ovf <- 1`: only a rejected `PUSH` does this (R24). -/
def Ring.setOvf (r : Ring) : Ring := { r with ovf := true }

/-- `ring.rd <- 0; ring.wr <- 0; ring.ovf <- 0`: only `CLEAR` does this, in one step (R141). -/
def Ring.cleared (r : Ring) : Ring := { r with rd := 0#16, wr := 0#16, ovf := false }

/-- `tx.fin <- 1`: the last byte is pushed, or the transmission is abandoned (R29). -/
def Tx.finish (t : Tx) : Tx := { t with fin := true }

/-- An accepted `START a, n`: `tx.base <- a; tx.len <- n; tx.sent <- 1; tx.fin <- 0` (R171). -/
def Tx.arm (addr len : Word) : Tx := { base := addr, len := len, sent := 1#16, fin := false }

/-- `tx.sent <- tx.sent + n; if tx.sent == tx.len then tx.fin <- 1`, the test on the updated `tx.sent` (R172). -/
def Tx.advance (t : Tx) (n : Nat) : Tx :=
  let sent := BitVec.ofNat 16 (t.sent.toNat + n)
  { t with sent := sent, fin := t.fin || sent == t.len }

end Sys2Proof.Machine
end

