-- ==== Sys2Proof/Machine/Ops.lean ====
section
/-! DEFINITION. The primitives of 00_scope R8 over the state: the two memories, the two streams, completion of a
port-C operation, the timeout predicate and the wait iteration, and draining one byte. The block raises no trap
and has no return from one (60_exceptions R200, R207, R208): `complete` is how an error reaches the mainline. -/

namespace Sys2Proof.Machine

/-- What one atomic step answers. -/
abbrev Result := Host.Outcome State Fault Refusal

/-- Go on with the value, or stop with the fault. -/
def onOk {α : Type} (x : Except Fault α) (k : α → Result) : Result :=
  match x with
  | .ok a => k a
  | .error f => .fault f

/-! ## Memories: addresses strictly rising -/

/-- The byte listed at an address. -/
def Memory.get? : Memory → Nat → Option Byte
  | [], _ => none
  | (a, b) :: m, x => if x = a then some b else Memory.get? m x

/-- List a byte at an address, in the place of one listed there. -/
def Memory.set : Memory → Nat → Byte → Memory
  | [], x, v => [(x, v)]
  | (a, b) :: m, x, v =>
    if x < a then (x, v) :: (a, b) :: m
    else if x = a then (x, v) :: m
    else (a, b) :: Memory.set m x v

/-- List nothing at an address. -/
def Memory.drop : Memory → Nat → Memory
  | [], _ => []
  | (a, b) :: m, x => if x = a then m else (a, b) :: Memory.drop m x

/-- Every address of the list is above `lo`, rising. -/
def Memory.risingFrom : Nat → Memory → Bool
  | _, [] => true
  | lo, (a, _) :: m => decide (lo ≤ a) && Memory.risingFrom (a + 1) m

/-- The canonical form of the ring's storage: addresses strictly rising and below `n`. A slot nothing has written
has no value, so there is no value an entry may not hold. -/
def Memory.ringWf (n : Nat) (m : Memory) : Bool :=
  Memory.risingFrom 0 m && m.all (fun c => decide (c.1 < n))

/-- The canonical form of `TXMEM`: addresses strictly rising and below `2^16`, and no entry equal to what an
unlisted address reads as. -/
def Memory.wf (m : Memory) : Bool :=
  Memory.risingFrom 0 m && m.all (fun c => decide (c.1 < Config.txmemSize) && c.2 != Config.txmemUnwritten)

/-! ## RING (20_memory R61) -/

/-- `RingRead(i)` (R61). A slot nothing has written has no value (10_state R38). -/
def ringRead (s : State) (i : Nat) : Except Fault Byte :=
  if i < s.cfg.n then
    match s.ring.storage.get? i with
    | some b => .ok b
    | none => .error .ringSlotUnwritten
  else .error .ringIndexOutOfRange

/-- `RingWrite(i, b)` (R61). -/
def ringWrite (s : State) (i : Nat) (b : Byte) : Except Fault State :=
  if i < s.cfg.n then .ok { s with ring := { s.ring with storage := s.ring.storage.set i b } }
  else .error .ringIndexOutOfRange

/-! ## TXMEM (20_memory R62) -/

/-- The byte at an address of `TXMEM`, as the environment holds it now (R62, R73). -/
def txByte (m : Memory) (a : Nat) : Byte := (m.get? a).getD Config.txmemUnwritten

/-- `MemRead(TXMEM, a, 1)` (R62). -/
def memRead (s : State) (a : Nat) : Except Fault Byte :=
  if a < Config.txmemSize then .ok (txByte s.txmem a) else .error .txmemOutOfRange

/-- The bytes at `a`, `a + 1`, … `a + n - 1`, in that order (R172). -/
def memReadRun (s : State) (a : Nat) : Nat → Except Fault (List Byte)
  | 0 => .ok []
  | n + 1 =>
    match memRead s a, memReadRun s (a + 1) n with
    | .ok b, .ok bs => .ok (b :: bs)
    | .error f, _ => .error f
    | _, .error f => .error f

/-- The environment writes a byte of `TXMEM` (R60; log 14). -/
def envWrite (s : State) (a : Word) (b : Byte) : State :=
  { s with
    txmem := if b = Config.txmemUnwritten then s.txmem.drop a.toNat else s.txmem.set a.toNat b }

/-! ## Streams and results -/

/-- `Out(b)` (R8). -/
def outByte (s : State) (b : Byte) : State := { s with out := s.out ++ [b] }

/-- `TxPush(b)` for each byte in turn (R8): the Transceiver always accepts (60_exceptions R210). -/
def txPush (s : State) (bs : List Byte) : State := { s with txd := s.txd ++ bs }

/-- `complete(status, value)`: end the operation, set `RES`, free port C (R8, 30_encoding R96). -/
def complete (s : State) (st : Status) (value : Word) : State :=
  { s with cop := .idle, res := resultWord st value }

/-- The operation goes on at a label (`goto`), with its locals (10_state R34). -/
def gotoLabel (s : State) (c : Cop) : State := { s with cop := c }

/-- A single-step operation of port C runs when port C is free and is refused otherwise (R34, R232). -/
def whenFree (s : State) (body : Result) : Result :=
  match s.cop with
  | .idle => body
  | _ => .refused .portCBusy

/-! ## The environment's answers (30_encoding R101) -/

/-- `Timeout()`: the constant false without a predicate; otherwise the next listed answer or, when none is
listed, a free value (R101; log 8). -/
def timeoutCall (s : State) : Bool × State :=
  if s.cfg.hasTimeout then
    match s.answers with
    | b :: rest => (b, { s with answers := rest })
    | [] => (Config.freeTimeout s.draws, { s with draws := s.draws + 1 })
  else (false, s)

/-- `Idle()`: no effect on any state of the block (R101; log 13). -/
def idleWait (s : State) : State := s

/-- A wait iteration whose condition is false: `Timeout()` once; fail if it fires, else `Idle()` and the same
label again (R133). -/
def waitIteration (s : State) (onTimeout : State → State) : Result :=
  match timeoutCall s with
  | (true, s) => .next (onTimeout s)
  | (false, s) => .next (idleWait s)

/-! ## Draining (41_ring_consumer R132) -/

/-- `DrainOne()`: copy the oldest byte out, then advance `ring.rd`; yields the byte (R132). -/
def drainOne (s : State) : Except Fault (Byte × State) :=
  match ringRead s s.ring.rd.toNat with
  | .ok b =>
    let s := outByte s b
    .ok (b, { s with ring := { s.ring with rd := nextIndex s.cfg.n s.ring.rd } })
  | .error f => .error f

end Sys2Proof.Machine
end

