-- ==== Sys2Proof/Machine/Channel.lean ====
section
/-! DEFINITION. The Channel's configuration operations: `SETMODE`, `SETDELIM` (43_channel R190, R191). -/

namespace Sys2Proof.Machine

/-- `SETMODE m` (R190). -/
def execSetmode (m : Mode) (s : State) : Result :=
  whenFree s <| .next (complete { s with ch := { s.ch with mode := m } } .ok 0#16)

/-- `SETDELIM imm8` (R191). -/
def execSetdelim (b : Byte) (s : State) : Result :=
  whenFree s <| .next (complete { s with ch := { s.ch with delim := b } } .ok 0#16)

end Sys2Proof.Machine
end

