-- ==== Sys2Proof/Machine/RingConsumer.lean ====
section
/-! DEFINITION. The consumer port of the ReceiveRing: `COUNT`, `ISOVF`, `RDNB`, `READ`, `READF`, `RDLINE`,
`PEEKLN`, `CLEAR` (41_ring_consumer R130 to R141).

`exec` of a compound operation is its next atomic step (00_scope R9): with port C free the command is accepted and
the operation stands before its first label; with this operation in progress the step of its label is taken; with
another in progress the command is refused (10_state R34, 70_reset_and_hazards R232; logs 7 and 9). -/

namespace Sys2Proof.Machine

/-! ## Single-step queries -/

/-- `COUNT` (R130). -/
def execCount (s : State) : Result :=
  whenFree s <| .next (complete s .ok (BitVec.ofNat 16 s.count))

/-- `ISOVF` (R131). -/
def execIsovf (s : State) : Result :=
  whenFree s <| .next (complete s .ok (flagWord s.ring.ovf))

/-! ## `RDNB` (R134) -/

/-- `S:` snapshot the count and fix `n = min(max, avail)`. -/
def rdnbStepS (max : Word) (s : State) : Result :=
  let n := BitVec.ofNat 16 (s.batch max)
  if n = 0#16 then .next (complete s .ok 0#16) else .next (gotoLabel s (.rdnbD max n 0#16))

/-- `D:` drain one byte; complete when `cnt == n`. -/
def rdnbStepD (max n cnt : Word) (s : State) : Result :=
  onOk (drainOne s) fun (_, s) =>
    if bump cnt = n then .next (complete s .ok n) else .next (gotoLabel s (.rdnbD max n (bump cnt)))

/-- `RDNB imm16` (R134). -/
def execRdnb (max : Word) (s : State) : Result :=
  match s.cop with
  | .idle => .next (gotoLabel s (.rdnbS max))
  | .rdnbS m => if m = max then rdnbStepS max s else .refused .portCBusy
  | .rdnbD m n cnt => if m = max then rdnbStepD max n cnt s else .refused .portCBusy
  | _ => .refused .portCBusy

/-! ## `READ` (R135) -/

/-- `W:` go on when the ring is not empty, else a wait iteration that fails with `(TIMEOUT, 0)`. -/
def readStepW (max : Word) (s : State) : Result :=
  if s.ringEmpty then waitIteration s fun s => complete s .timeout 0#16
  else .next (gotoLabel s (.readD max 0#16))

/-- `D:` complete when `cnt == max` or the ring is empty, else drain one byte; `ring.wr` is read anew. -/
def readStepD (max cnt : Word) (s : State) : Result :=
  if cnt = max ∨ s.ringEmpty then .next (complete s .ok cnt)
  else onOk (drainOne s) fun (_, s) => .next (gotoLabel s (.readD max (bump cnt)))

/-- `READ imm16` (R135). -/
def execRead (max : Word) (s : State) : Result :=
  match s.cop with
  | .idle => .next (gotoLabel s (.readW max))
  | .readW m => if m = max then readStepW max s else .refused .portCBusy
  | .readD m cnt => if m = max then readStepD max cnt s else .refused .portCBusy
  | _ => .refused .portCBusy

/-! ## `READF` (R136) -/

/-- `F:` complete when `total == max`, else start an inner read. -/
def readfStepF (max total : Word) (s : State) : Result :=
  if total = max then .next (complete s .ok total) else .next (gotoLabel s (.readfW max total 0#16))

/-- `W:` go on when the ring is not empty, else a wait iteration that fails with `(TIMEOUT, total)`. -/
def readfStepW (max total cnt : Word) (s : State) : Result :=
  if s.ringEmpty then waitIteration s fun s => complete s .timeout total
  else .next (gotoLabel s (.readfD max total cnt))

/-- `D:` add the batch to `total` when it is complete or the ring is empty, else drain one byte. -/
def readfStepD (max total cnt : Word) (s : State) : Result :=
  if total.toNat + cnt.toNat = max.toNat ∨ s.ringEmpty then .next (gotoLabel s (.readfF max (total + cnt)))
  else onOk (drainOne s) fun (_, s) => .next (gotoLabel s (.readfD max total (bump cnt)))

/-- `READF imm16` (R136). -/
def execReadf (max : Word) (s : State) : Result :=
  match s.cop with
  | .idle => .next (gotoLabel s (.readfF max 0#16))
  | .readfF m total => if m = max then readfStepF max total s else .refused .portCBusy
  | .readfW m total cnt => if m = max then readfStepW max total cnt s else .refused .portCBusy
  | .readfD m total cnt => if m = max then readfStepD max total cnt s else .refused .portCBusy
  | _ => .refused .portCBusy

/-! ## `RDLINE` (R137) -/

/-- Every stop of `RDLINE` first appends the terminator, then completes with the count (R137, D32). -/
def stopLine (s : State) (st : Status) (cnt : Word) : State :=
  complete (outByte s Config.terminator) st cnt

/-- `L:` size limit, then overflow, then a wait iteration while empty, else one byte and the delimiter test. -/
def rdlineStepL (maxSize cnt : Word) (s : State) : Result :=
  if cnt.toNat = maxSize.toNat - 1 then .next (stopLine s .ok cnt)
  else if s.ring.ovf then .next (stopLine s .badline cnt)
  else if s.ringEmpty then waitIteration s fun s => stopLine s .timeout cnt
  else onOk (drainOne s) fun (b, s) =>
    if b = s.ch.delim then .next (stopLine s .ok (bump cnt))
    else .next (gotoLabel s (.rdlineL maxSize (bump cnt)))

/-- `RDLINE imm16` (R137): `max_size == 0` is refused before any step. -/
def execRdline (maxSize : Word) (s : State) : Result :=
  match s.cop with
  | .idle =>
    if rdlineLegal maxSize then .next (gotoLabel s (.rdlineL maxSize 0#16))
    else .next (complete s .illegal 0#16)
  | .rdlineL m cnt => if m = maxSize then rdlineStepL maxSize cnt s else .refused .portCBusy
  | _ => .refused .portCBusy

/-! ## `PEEKLN` (R138) -/

/-- Examine `k` stored bytes from distance `d` on, oldest first: the distance to and including the nearest
delimiter, or 0 (R138). -/
def scanFrom (s : State) (d : Nat) : Nat → Except Fault Nat
  | 0 => .ok 0
  | k + 1 =>
    match ringRead s (s.slotAt d) with
    | .ok b => if b = s.ch.delim then .ok (d + 1) else scanFrom s (d + 1) k
    | .error f => .error f

/-- `PEEKLN` (R138): the overflow test comes first. -/
def execPeekln (s : State) : Result :=
  whenFree s <|
    if s.ring.ovf then .next (complete s .overflow 0#16)
    else onOk (scanFrom s 0 s.count) fun d => .next (complete s .ok (BitVec.ofNat 16 d))

/-! ## `CLEAR` (R141) -/

/-- `CLEAR` (R141): the three fields in one step in which P takes no part (20_memory R71). -/
def execClear (s : State) : Result :=
  whenFree s <| .next (complete { s with ring := s.ring.cleared } .ok 0#16)

end Sys2Proof.Machine
end

