-- ==== Sys2Proof/Machine/RingProducer.lean ====
section
/-! DEFINITION. The producer port of the ReceiveRing: `PUSH` (40_ring_producer R120). -/

namespace Sys2Proof.Machine

/-- `PUSH imm8` (R120): store at slot `ring.wr` on both paths; then advance `ring.wr`, or, when the candidate
index equals `ring.rd`, leave it and set `ring.ovf`. -/
def execPush (b : Byte) (s : State) : Result :=
  onOk (ringWrite s s.ring.wr.toNat b) fun s =>
    let cand := nextIndex s.cfg.n s.ring.wr
    if cand = s.ring.rd then .next { s with ring := s.ring.setOvf }
    else .next { s with ring := { s.ring with wr := cand } }

end Sys2Proof.Machine
end

