-- ==== Sys2Proof/Machine/Transmit.lean ====
section
/-! DEFINITION. The TransmitSequencer: `TXEV`, `START`, `ISFIN`, `CLRTX` (42_transmit_sequencer R170 to R174). -/

namespace Sys2Proof.Machine

/-- `TXEV` (R172): nothing in `Idle`; otherwise push `min(K, tx.len - tx.sent)` bytes in ascending order, each as
`TXMEM` holds it now, and finish when `tx.sent` reaches `tx.len`. -/
def execTxev (s : State) : Result :=
  if s.tx.fin then .next s
  else onOk (memReadRun s (s.txAddr s.tx.sent.toNat) s.burst) fun bs =>
    .next { txPush s bs with tx := s.tx.advance s.burst }

/-! ## `START` (R171) -/

/-- `S0:` busy, zero length, or arm and push the priming byte; then read `ch.mode` once. -/
def startStepS0 (addr len : Word) (s : State) : Result :=
  if s.tx.fin = false then .next (complete s .busy 0#16)
  else if len = 0#16 then .next (complete s .ok 0#16)
  else onOk (memRead s addr.toNat) fun b =>
    let s := txPush { s with tx := Tx.arm addr len } [b]
    match s.ch.mode with
    | .nonblocking => .next (complete s .ok 0#16)
    | .blocking => .next (gotoLabel s (.startS1 addr len))

/-- `S1:` complete when the transmission is finished, else a wait iteration that abandons it on timeout. -/
def startStepS1 (s : State) : Result :=
  if s.tx.fin then .next (complete s .ok s.tx.len)
  else waitIteration s fun s => complete { s with tx := s.tx.finish } .timeout s.tx.sent

/-- `START addr16, len16` (R171): a buffer past the end of `TXMEM` is refused before any step. `exec` of it is its
next atomic step, as for the compound operations of the ring. -/
def execStart (addr len : Word) (s : State) : Result :=
  match s.cop with
  | .idle =>
    if startLegal addr len then .next (gotoLabel s (.startS0 addr len))
    else .next (complete s .illegal 0#16)
  | .startS0 a n => if a = addr ∧ n = len then startStepS0 addr len s else .refused .portCBusy
  | .startS1 a n => if a = addr ∧ n = len then startStepS1 s else .refused .portCBusy
  | _ => .refused .portCBusy

/-- `ISFIN` (R173). -/
def execIsfin (s : State) : Result :=
  whenFree s <| .next (complete s .ok (flagWord s.tx.fin))

/-- `CLRTX` (R174): `tx.fin <- 1` and nothing else. -/
def execClrtx (s : State) : Result :=
  whenFree s <| .next (complete { s with tx := s.tx.finish } .ok 0#16)

end Sys2Proof.Machine
end

