-- ==== Sys2Proof/Machine/Dispatch.lean ====
section
/-! DEFINITION. One atomic step of an operation: one arm for each constructor of `Instr`. -/

namespace Sys2Proof.Machine

def exec (i : Instr) (s : State) : Host.Outcome State Fault Refusal :=
  match i with
  | .push b => Sys2Proof.Machine.execPush b s
  | .txev => Sys2Proof.Machine.execTxev s
  | .count => Sys2Proof.Machine.execCount s
  | .isovf => Sys2Proof.Machine.execIsovf s
  | .rdnb max => Sys2Proof.Machine.execRdnb max s
  | .read max => Sys2Proof.Machine.execRead max s
  | .readf max => Sys2Proof.Machine.execReadf max s
  | .rdline maxSize => Sys2Proof.Machine.execRdline maxSize s
  | .peekln => Sys2Proof.Machine.execPeekln s
  | .clear => Sys2Proof.Machine.execClear s
  | .start addr len => Sys2Proof.Machine.execStart addr len s
  | .isfin => Sys2Proof.Machine.execIsfin s
  | .clrtx => Sys2Proof.Machine.execClrtx s
  | .setmode m => Sys2Proof.Machine.execSetmode m s
  | .setdelim b => Sys2Proof.Machine.execSetdelim b s

end Sys2Proof.Machine
end

