-- ==== Sys2Proof/Machine/Ports.lean ====
section
/-! DEFINITION. The two command ports (30_encoding R94, R95; 10_state R34) and the turn of port C. -/

namespace Sys2Proof.Machine

/-- A command word at port P: a legal one is one atomic step; an illegal one, or one of port C's operations, is
ignored and reports nothing (R94, R95, D27). Port P has no context: `cop` plays no part (R207). -/
def presentP (w : Cmd) (s : State) : Result :=
  match decode w with
  | .ok i => if i.port = .P then exec i s else .next s
  | .error _ => .next s

/-- A command word at port C: accepted only when `cop == IDLE` (R34, R232); an illegal one, or one of port P's
operations, completes with `(ILLEGAL, 0)` (R94, R95). -/
def presentC (w : Cmd) (s : State) : Result :=
  match s.cop with
  | .idle =>
    match decode w with
    | .ok i => if i.port = .C then exec i s else .next (complete s .illegal 0#16)
    | .error _ => .next (complete s .illegal 0#16)
  | _ => .refused .portCBusy

/-- The turn of port C: the operation in progress takes its next atomic step; with port C free nothing happens
(R9, R34; log 6). -/
def advanceC (s : State) : Result :=
  match s.cop.instr? with
  | some i => exec i s
  | none => .next s

/-- One line of the schedule (R102). -/
def takeInput (i : Input) (s : State) : Result :=
  match i with
  | .cmdP w => presentP w s
  | .cmdC w => presentC w s
  | .stepC => advanceC s
  | .envWrite a b => .next (envWrite s a b)

/-- The next atomic step of a run (20_memory R68): what the schedule says next; when it says nothing more, port C
goes on with the operation it holds, if any (log 6). -/
def nextStep (s : State) : Result :=
  match s.schedule with
  | i :: rest => takeInput i { s with schedule := rest }
  | [] => advanceC s

/-- `s` with a command word as the very next input, at the port its operation is legal at; a word that is no
operation goes to port C. A word at port C needs port C free (R34; log 11). -/
def placeCommand (s : State) (w : Cmd) : State :=
  match decode w with
  | .ok i =>
    if i.port = .P then { s with schedule := .cmdP w :: s.schedule }
    else { s with schedule := .cmdC w :: s.schedule, cop := .idle }
  | .error _ => { s with schedule := .cmdC w :: s.schedule, cop := .idle }

end Sys2Proof.Machine
end

