-- ==== Sys2Proof/Machine/Step.lean ====
section
/-! DEFINITION. The step of the machine: the next atomic step of the run that the schedule in State describes
(20_memory R68), and the placing of a command word where the step takes its next input. -/

namespace Sys2Proof.Machine

/-- One step: one atomic step of P or C, or one write of `TXMEM` by ENV (R6, R9, R68; log 15). -/
def step (s : State) : Host.Outcome State Fault Refusal := nextStep s

/-- `s` with the command word `w` presented next, so that the very next step runs it. The block fetches no
instructions (R34, R73): a command is presented at a port, so the word goes to the head of the schedule (log 11). -/
def State.withFetchWord (s : State) (nbits w : Nat) : State :=
  placeCommand s (BitVec.ofNat 40 (w % 2 ^ nbits))

end Sys2Proof.Machine
end

