-- ==== Sys2Proof/Safety.lean ====
section
/-! DEFINITION. The terms claims use: the stored bytes of the ring, and the invariant that every state reached from
reset has (10_state R25, R30, R34, R38; 20_memory R61, R62). -/

namespace Sys2Proof.Machine

/-- The stored byte number `k`, oldest first, if a `PUSH` has written its slot (10_state R25). -/
def State.slotByte (s : State) (k : Nat) : Option Byte := s.ring.storage.get? (s.slotAt k)

/-- The stored bytes, oldest first: the slots `(ring.rd + j) mod N` for `j = 0 .. count - 1` (R25). -/
def State.contents (s : State) : List Byte := (List.range s.count).filterMap s.slotByte

/-- The ring invariant (R25), the storage's canonical form, and that every stored slot has been written (R38). -/
structure RingInv (s : State) : Prop where
  rd_lt : s.ring.rd.toNat < s.cfg.n
  wr_lt : s.ring.wr.toNat < s.cfg.n
  storage_wf : s.ring.storage.ringWf s.cfg.n = true
  stored_written : ∀ k < s.count, (s.slotByte k).isSome = true

/-- The sequencer invariant (R30), and that the borrowed buffer lies inside `TXMEM` (20_memory R62). -/
structure TxInv (t : Tx) : Prop where
  sent_le : t.sent.toNat ≤ t.len.toNat
  in_range : t.base.toNat + t.len.toNat ≤ 0x10000
  sending_pos : t.fin = false → 1 ≤ t.sent.toNat
  sending_all_sent : t.fin = false → t.sent = t.len → t.len = 1#16

/-- The operand and the locals of the operation in progress at each label (R34; 41_ring_consumer R134 to R137,
42_transmit_sequencer R171): `RDNB` has bytes left to drain and they are stored; no counter passes its limit; a
refused operand is not in progress; a waiting `START` still owns the sequencer's registers. -/
def CopInv (s : State) : Prop :=
  match s.cop with
  | .idle => True
  | .rdnbS _ => True
  | .rdnbD max n cnt => cnt.toNat < n.toNat ∧ n.toNat ≤ max.toNat ∧ n.toNat - cnt.toNat ≤ s.count
  | .readW _ => True
  | .readD max cnt => cnt.toNat ≤ max.toNat
  | .readfF max total => total.toNat ≤ max.toNat
  | .readfW max total cnt => total.toNat < max.toNat ∧ cnt = 0#16
  | .readfD max total cnt => total.toNat + cnt.toNat ≤ max.toNat
  | .rdlineL maxSize cnt => cnt.toNat + 1 ≤ maxSize.toNat
  | .startS0 addr len => startLegal addr len = true
  | .startS1 addr len => s.tx.base = addr ∧ s.tx.len = len ∧ len ≠ 0#16

/-- One call of the timeout predicate in `s` answers `fired` and leaves `t` (30_encoding R101; log 8): the constant
false without a predicate; else the next listed answer, or a free value when none is listed. -/
def Asked (s : State) (fired : Bool) (t : State) : Prop :=
  (s.cfg.hasTimeout = false ∧ fired = false ∧ t = s) ∨
  (s.cfg.hasTimeout = true ∧ ∃ rest, s.answers = fired :: rest ∧ t = { s with answers := rest }) ∨
  (s.cfg.hasTimeout = true ∧ s.answers = [] ∧ fired = Config.freeTimeout s.draws ∧ t = { s with draws := s.draws + 1 })

/-- `k` steps, stopping at the first fault or refusal. -/
def steps : Nat → State → Result
  | 0, s => .next s
  | k + 1, s =>
    match step s with
    | .next t => steps k t
    | .fault f => .fault f
    | .refused r => .refused r

/-- The byte an input gives to `PUSH`, if it is a `PUSH` at port P (R120). -/
def Input.pushed : Input → Option Byte
  | .cmdP w =>
    match decode w with
    | .ok (.push b) => some b
    | _ => none
  | .cmdC _ | .stepC | .envWrite _ _ => none

/-- What every state reached from reset satisfies. -/
structure Inv (s : State) : Prop where
  params : s.cfg.wf
  ring : RingInv s
  tx : TxInv s.tx
  cop : CopInv s
  txmem : s.txmem.wf = true

end Sys2Proof.Machine
end

