-- ==== Sys2Proof/Certificates/Slice0/Obligations.lean ====
section
/-! DEFINITION. The statements for the provers. Where a statement says what `exec` answers, the state it answers is
written out whole: what its record update does not name is unchanged. -/

open Sys2Proof Sys2Proof.Machine

/-! ## Encoding (30_encoding) -/

/-- R93, with R91 and R92: a word selects a row when `w & mask == match`, and the operands are the named bits; the
ports are the map's. -/
def Obligations.WordSelectsRowByMaskAndMatch : Prop :=
  (∀ w : Cmd,
    (∀ b, decode w = .ok (.push b) ↔ w &&& 0xFFFFFFFF00#40 = 0x0100000000#40 ∧ b = w.extractLsb' 0 8) ∧
    (decode w = .ok .txev ↔ w &&& 0xFFFFFFFFFF#40 = 0x0200000000#40) ∧
    (decode w = .ok .count ↔ w &&& 0xFFFFFFFFFF#40 = 0x1000000000#40) ∧
    (decode w = .ok .isovf ↔ w &&& 0xFFFFFFFFFF#40 = 0x1100000000#40) ∧
    (∀ m, decode w = .ok (.rdnb m) ↔ w &&& 0xFFFFFF0000#40 = 0x1200000000#40 ∧ m = w.extractLsb' 0 16) ∧
    (∀ m, decode w = .ok (.read m) ↔ w &&& 0xFFFFFF0000#40 = 0x1300000000#40 ∧ m = w.extractLsb' 0 16) ∧
    (∀ m, decode w = .ok (.readf m) ↔ w &&& 0xFFFFFF0000#40 = 0x1400000000#40 ∧ m = w.extractLsb' 0 16) ∧
    (∀ m, decode w = .ok (.rdline m) ↔ w &&& 0xFFFFFF0000#40 = 0x1500000000#40 ∧ m = w.extractLsb' 0 16) ∧
    (decode w = .ok .peekln ↔ w &&& 0xFFFFFFFFFF#40 = 0x1600000000#40) ∧
    (decode w = .ok .clear ↔ w &&& 0xFFFFFFFFFF#40 = 0x1700000000#40) ∧
    (∀ a n, decode w = .ok (.start a n) ↔
      w &&& 0xFF00000000#40 = 0x2000000000#40 ∧ a = w.extractLsb' 16 16 ∧ n = w.extractLsb' 0 16) ∧
    (decode w = .ok .isfin ↔ w &&& 0xFFFFFFFFFF#40 = 0x2100000000#40) ∧
    (decode w = .ok .clrtx ↔ w &&& 0xFFFFFFFFFF#40 = 0x2200000000#40) ∧
    (∀ m, decode w = .ok (.setmode m) ↔
      w &&& 0xFFFFFFFFFE#40 = 0x3000000000#40 ∧
        m = if w.extractLsb' 0 1 = 1#1 then Mode.nonblocking else Mode.blocking) ∧
    (∀ b, decode w = .ok (.setdelim b) ↔ w &&& 0xFFFFFFFF00#40 = 0x3100000000#40 ∧ b = w.extractLsb' 0 8)) ∧
  (∀ i : Instr, i.port = .P ↔ (∃ b, i = .push b) ∨ i = .txev)

/-- Decode and encode agree: no bit of an operand is dropped, for every operation with every operand value,
refused ones too. -/
def Obligations.DecodeEncodeRoundTrip : Prop :=
  ∀ i : Instr, decode (encode i) = .ok i

/-- The other direction: a word that decodes is the word of its operation, so no reserved bit is passed over. -/
def Obligations.EncodeDecodeRoundTrip : Prop :=
  ∀ (w : Cmd) (i : Instr), decode w = .ok i → encode i = w

/-- Words of 95_test_vectors E1 decode to the commands E1 names. -/
def Obligations.SpecWordsDecode : Prop :=
  decode 0x0100000061#40 = .ok (.push 0x61#8) ∧ decode 0x0200000000#40 = .ok .txev ∧
  decode 0x1200000010#40 = .ok (.rdnb 16#16) ∧ decode 0x1500000050#40 = .ok (.rdline 80#16) ∧
  decode 0x2001000005#40 = .ok (.start 0x0100#16 5#16) ∧ decode 0x3000000001#40 = .ok (.setmode .nonblocking) ∧
  decode 0x310000000D#40 = .ok (.setdelim 0x0D#8)

/-- R95: which words are illegal, and that an illegal command changes nothing but `RES` at port C and nothing at
port P. -/
def Obligations.IllegalCommandChangesNothingButRes : Prop :=
  (∀ w : Cmd, (∃ i, decode w = .ok i) ↔
    ∃ p ∈ [(0xFFFFFFFF00#40, 0x0100000000#40), (0xFFFFFFFFFF#40, 0x0200000000#40),
      (0xFFFFFFFFFF#40, 0x1000000000#40), (0xFFFFFFFFFF#40, 0x1100000000#40), (0xFFFFFF0000#40, 0x1200000000#40),
      (0xFFFFFF0000#40, 0x1300000000#40), (0xFFFFFF0000#40, 0x1400000000#40), (0xFFFFFF0000#40, 0x1500000000#40),
      (0xFFFFFFFFFF#40, 0x1600000000#40), (0xFFFFFFFFFF#40, 0x1700000000#40), (0xFF00000000#40, 0x2000000000#40),
      (0xFFFFFFFFFF#40, 0x2100000000#40), (0xFFFFFFFFFF#40, 0x2200000000#40), (0xFFFFFFFFFE#40, 0x3000000000#40),
      (0xFFFFFFFF00#40, 0x3100000000#40)], w &&& p.1 = p.2) ∧
  (∀ (s : State) (w : Cmd) (rest : List Input),
    s.schedule = .cmdC w :: rest → s.cop = .idle →
    (∀ i, decode w = .ok i →
      i.port = .P ∨ i = .rdline 0#16 ∨ ∃ a n : Word, i = .start a n ∧ 0x10000 < a.toNat + n.toNat) →
    step s = .next { s with schedule := rest, res := 0xFF0000#24 }) ∧
  (∀ (s : State) (w : Cmd) (rest : List Input),
    s.schedule = .cmdP w :: rest → (∀ i, decode w = .ok i → i.port = .C) →
    step s = .next { s with schedule := rest })

/-- R96: the layout of `RES` and the code of each status. -/
def Obligations.ResultWordLayout : Prop :=
  ∀ v : Word,
    resultWord .ok v = (0x00#8 ++ v : BitVec 24) ∧ resultWord .busy v = (0x01#8 ++ v : BitVec 24) ∧
    resultWord .overflow v = (0x02#8 ++ v : BitVec 24) ∧ resultWord .timeout v = (0x03#8 ++ v : BitVec 24) ∧
    resultWord .badline v = (0x04#8 ++ v : BitVec 24) ∧ resultWord .illegal v = (0xFF#8 ++ v : BitVec 24) ∧
    ∀ st, (resultWord st v).extractLsb' 0 16 = v

/-! ## The ports and the step (10_state R34, 20_memory R68; the schedule is log 6) -/

/-- A step runs the decoded command at its port, or the next atomic step of the operation that port C holds. The
schedule as a list, and what happens when it says nothing more, are the model's own (log 6). -/
def Obligations.StepRunsTheDecodedCommand : Prop :=
  ∀ (s : State) (rest : List Input),
    (∀ w i, s.schedule = .cmdP w :: rest → decode w = .ok i → i.port = .P →
      step s = exec i { s with schedule := rest }) ∧
    (∀ w i, s.schedule = .cmdC w :: rest → s.cop = .idle → decode w = .ok i → i.port = .C →
      step s = exec i { s with schedule := rest }) ∧
    (∀ i, s.schedule = .stepC :: rest → s.cop.instr? = some i → step s = exec i { s with schedule := rest }) ∧
    (∀ i, s.schedule = [] → s.cop.instr? = some i → step s = exec i s) ∧
    (s.schedule = .stepC :: rest → s.cop = .idle → step s = .next { s with schedule := rest }) ∧
    (s.schedule = [] → s.cop = .idle → step s = .next s)

/-- The very next step after `withFetchWord` runs the placed word (log 11). -/
def Obligations.PlacedWordRunsNext : Prop :=
  ∀ (s : State) (w : Nat) (i : Instr), decodeTableWord 40 w = some i →
    (i.port = .P → step (s.withFetchWord 40 w) = exec i s) ∧
    (i.port = .C → step (s.withFetchWord 40 w) = exec i { s with cop := .idle })

/-- R34, R232, D29: port C takes one operation at a time. -/
def Obligations.PortCHoldsOneOperation : Prop :=
  (∀ (s : State) (w : Cmd) (rest : List Input), s.schedule = .cmdC w :: rest → s.cop ≠ .idle →
    step s = .refused .portCBusy) ∧
  (∀ (s : State) (i : Instr), i.port = .C → s.cop ≠ .idle → s.cop.instr? ≠ some i →
    exec i s = .refused .portCBusy)

/-! ## `PUSH` (40_ring_producer) -/

/-- R120: the byte goes to slot `ring.wr` on both paths and to no other slot; a full ring keeps `ring.wr` and sets
`ring.ovf`; otherwise `ring.wr` advances and `ring.ovf` stays. Nothing else changes. -/
def Obligations.PushStoresThenAdvancesOrFlagsOverflow : Prop :=
  ∀ (s : State) (b : Byte), s.cfg.wf → s.ring.wr.toNat < s.cfg.n →
    ∃ t, exec (.push b) s = .next t ∧
      t.ring.storage.get? s.ring.wr.toNat = some b ∧
      (∀ a, a ≠ s.ring.wr.toNat → t.ring.storage.get? a = s.ring.storage.get? a) ∧
      ((s.ring.wr.toNat + 1) % s.cfg.n = s.ring.rd.toNat → t.ring.wr = s.ring.wr ∧ t.ring.ovf = true) ∧
      ((s.ring.wr.toNat + 1) % s.cfg.n ≠ s.ring.rd.toNat →
        t.ring.wr.toNat = (s.ring.wr.toNat + 1) % s.cfg.n ∧ t.ring.ovf = s.ring.ovf) ∧
      t.ring.rd = s.ring.rd ∧ { t with ring := s.ring } = s

/-- R25, R120: on the stored bytes `PUSH` appends its byte, or, on a full ring, leaves them as they are. -/
def Obligations.PushAppendsToTheStoredBytes : Prop :=
  ∀ (s t : State) (b : Byte), s.cfg.wf → RingInv s → exec (.push b) s = .next t →
    t.contents = if s.count = s.cfg.n - 1 then s.contents else s.contents ++ [b]

/-- R122: from an empty, unflagged ring, with no consumer step between, the first `N - 1` bytes are kept, the `N`-th
`PUSH` is the first rejected, and `COUNT` then answers `N - 1`. That the commands come from a list is the model's
choice (log 6). -/
def Obligations.OldestBytesKeptNewestDropped : Prop :=
  ∀ (s : State) (bs : List Byte), s.cfg.wf → RingInv s → s.ring.rd = s.ring.wr → s.ring.ovf = false →
    s.schedule = bs.map (fun b => .cmdP (encode (.push b))) →
    ∃ t, steps bs.length s = .next t ∧ t.contents = bs.take (s.cfg.n - 1) ∧
      (t.ring.ovf = true ↔ s.cfg.n ≤ bs.length) ∧ t.ring.rd = s.ring.rd ∧
      (s.cop = .idle → exec .count t =
        .next { t with res := resultWord .ok (BitVec.ofNat 16 (min bs.length (s.cfg.n - 1))) })

/-! ## The consumer port of the ring (41_ring_consumer) -/

/-- R130: `COUNT` answers `(wr - rd) mod N`, a value in `[0, N - 1]`; nothing but `RES` changes. -/
def Obligations.CountAnswersTheResidue : Prop :=
  ∀ s : State, s.cfg.wf → s.cop = .idle → ∃ v : Word,
    exec .count s = .next { s with res := resultWord .ok v } ∧
    ((v.toNat : Int) = ((s.ring.wr.toNat : Int) - s.ring.rd.toNat) % s.cfg.n) ∧ v.toNat ≤ s.cfg.n - 1

/-- The spec's inference in R25 and R130: the count is 0 exactly when `rd == wr` (empty) and `N - 1` exactly when
`(wr + 1) mod N == rd` (full). -/
def Obligations.CountTellsEmptyAndFull : Prop :=
  ∀ s : State, s.cfg.wf → s.ring.rd.toNat < s.cfg.n → s.ring.wr.toNat < s.cfg.n → s.cop = .idle → ∃ v : Word,
    exec .count s = .next { s with res := resultWord .ok v } ∧
    (v = 0#16 ↔ s.ring.rd = s.ring.wr) ∧
    (v.toNat = s.cfg.n - 1 ↔ (s.ring.wr.toNat + 1) % s.cfg.n = s.ring.rd.toNat)

/-- R131: `ISOVF` answers `ring.ovf` with status `OK` and clears nothing. -/
def Obligations.IsovfAnswersTheFlag : Prop :=
  ∀ s : State, s.cop = .idle →
    exec .isovf s = .next { s with res := resultWord .ok (if s.ring.ovf then 1#16 else 0#16) }

/-- The model's reading of 10_state section 6 and 30_encoding section 6, an inference (log 7): presenting a compound
command at a free port C is a step of its own, after which the operation stands before its first label with the
locals that have a value there, and nothing else has changed. -/
def Obligations.CompoundCommandsAreTakenUp : Prop :=
  ∀ s : State, s.cop = .idle →
    (∀ max, exec (.rdnb max) s = .next { s with cop := .rdnbS max }) ∧
    (∀ max, exec (.read max) s = .next { s with cop := .readW max }) ∧
    (∀ max, exec (.readf max) s = .next { s with cop := .readfF max 0#16 }) ∧
    (∀ size, size ≠ 0#16 → exec (.rdline size) s = .next { s with cop := .rdlineL size 0#16 }) ∧
    (∀ a n : Word, a.toNat + n.toNat ≤ 0x10000 → exec (.start a n) s = .next { s with cop := .startS0 a n })

/-- R134: every labelled step of `RDNB`. -/
def Obligations.RdnbSteps : Prop :=
  ∀ (s : State) (max : Word), s.cfg.wf →
    (s.cop = .rdnbS max → min max.toNat s.count = 0 →
      exec (.rdnb max) s = .next { s with cop := .idle, res := resultWord .ok 0#16 }) ∧
    (s.cop = .rdnbS max → min max.toNat s.count ≠ 0 →
      exec (.rdnb max) s = .next { s with cop := .rdnbD max (BitVec.ofNat 16 (min max.toNat s.count)) 0#16 }) ∧
    (∀ n cnt b, s.cop = .rdnbD max n cnt → s.ring.rd.toNat < s.cfg.n →
      s.ring.storage.get? s.ring.rd.toNat = some b → cnt + 1#16 = n →
      exec (.rdnb max) s = .next { s with
        out := s.out ++ [b], ring := { s.ring with rd := BitVec.ofNat 16 ((s.ring.rd.toNat + 1) % s.cfg.n) },
        cop := .idle, res := resultWord .ok n }) ∧
    (∀ n cnt b, s.cop = .rdnbD max n cnt → s.ring.rd.toNat < s.cfg.n →
      s.ring.storage.get? s.ring.rd.toNat = some b → cnt + 1#16 ≠ n →
      exec (.rdnb max) s = .next { s with
        out := s.out ++ [b], ring := { s.ring with rd := BitVec.ofNat 16 ((s.ring.rd.toNat + 1) % s.cfg.n) },
        cop := .rdnbD max n (cnt + 1#16) })

/-- R135: every labelled step of `READ`. -/
def Obligations.ReadSteps : Prop :=
  ∀ (s : State) (max : Word),
    (s.cop = .readW max → s.ring.rd ≠ s.ring.wr → exec (.read max) s = .next { s with cop := .readD max 0#16 }) ∧
    (∀ t, s.cop = .readW max → s.ring.rd = s.ring.wr → Asked s true t →
      exec (.read max) s = .next { t with cop := .idle, res := resultWord .timeout 0#16 }) ∧
    (∀ t, s.cop = .readW max → s.ring.rd = s.ring.wr → Asked s false t → exec (.read max) s = .next t) ∧
    (∀ cnt, s.cop = .readD max cnt → (cnt = max ∨ s.ring.rd = s.ring.wr) →
      exec (.read max) s = .next { s with cop := .idle, res := resultWord .ok cnt }) ∧
    (∀ cnt b, s.cop = .readD max cnt → cnt ≠ max → s.ring.rd ≠ s.ring.wr → s.ring.rd.toNat < s.cfg.n →
      s.ring.storage.get? s.ring.rd.toNat = some b →
      exec (.read max) s = .next { s with
        out := s.out ++ [b], ring := { s.ring with rd := BitVec.ofNat 16 ((s.ring.rd.toNat + 1) % s.cfg.n) },
        cop := .readD max (cnt + 1#16) })

/-- R136: every labelled step of `READF`. -/
def Obligations.ReadfSteps : Prop :=
  ∀ (s : State) (max : Word),
    (s.cop = .readfF max max → exec (.readf max) s = .next { s with cop := .idle, res := resultWord .ok max }) ∧
    (∀ total, s.cop = .readfF max total → total ≠ max →
      exec (.readf max) s = .next { s with cop := .readfW max total 0#16 }) ∧
    (∀ total cnt, s.cop = .readfW max total cnt → s.ring.rd ≠ s.ring.wr →
      exec (.readf max) s = .next { s with cop := .readfD max total cnt }) ∧
    (∀ total cnt t, s.cop = .readfW max total cnt → s.ring.rd = s.ring.wr → Asked s true t →
      exec (.readf max) s = .next { t with cop := .idle, res := resultWord .timeout total }) ∧
    (∀ total cnt t, s.cop = .readfW max total cnt → s.ring.rd = s.ring.wr → Asked s false t →
      exec (.readf max) s = .next t) ∧
    (∀ total cnt, s.cop = .readfD max total cnt →
      (total.toNat + cnt.toNat = max.toNat ∨ s.ring.rd = s.ring.wr) →
      exec (.readf max) s = .next { s with cop := .readfF max (total + cnt) }) ∧
    (∀ total cnt b, s.cop = .readfD max total cnt → total.toNat + cnt.toNat ≠ max.toNat →
      s.ring.rd ≠ s.ring.wr → s.ring.rd.toNat < s.cfg.n → s.ring.storage.get? s.ring.rd.toNat = some b →
      exec (.readf max) s = .next { s with
        out := s.out ++ [b], ring := { s.ring with rd := BitVec.ofNat 16 ((s.ring.rd.toNat + 1) % s.cfg.n) },
        cop := .readfD max total (cnt + 1#16) })

/-- Every step of `RDLINE` but its being taken up, in the order of its tests (41_ring_consumer section 3): the operand
test when presented; size limit, overflow, wait, byte and delimiter. That the terminator is the byte 0x00 the spec marks as general knowledge (log 12). -/
def Obligations.RdlineSteps : Prop :=
  ∀ (s : State) (size : Word),
    (s.cop = .idle → size = 0#16 → exec (.rdline size) s = .next { s with res := resultWord .illegal 0#16 }) ∧
    (∀ cnt, s.cop = .rdlineL size cnt → cnt.toNat = size.toNat - 1 →
      exec (.rdline size) s = .next { s with
        out := s.out ++ [0x00#8], cop := .idle, res := resultWord .ok cnt }) ∧
    (∀ cnt, s.cop = .rdlineL size cnt → cnt.toNat ≠ size.toNat - 1 → s.ring.ovf = true →
      exec (.rdline size) s = .next { s with
        out := s.out ++ [0x00#8], cop := .idle, res := resultWord .badline cnt }) ∧
    (∀ cnt t, s.cop = .rdlineL size cnt → cnt.toNat ≠ size.toNat - 1 → s.ring.ovf = false →
      s.ring.rd = s.ring.wr → Asked s true t →
      exec (.rdline size) s = .next { t with
        out := t.out ++ [0x00#8], cop := .idle, res := resultWord .timeout cnt }) ∧
    (∀ cnt t, s.cop = .rdlineL size cnt → cnt.toNat ≠ size.toNat - 1 → s.ring.ovf = false →
      s.ring.rd = s.ring.wr → Asked s false t → exec (.rdline size) s = .next t) ∧
    (∀ cnt b, s.cop = .rdlineL size cnt → cnt.toNat ≠ size.toNat - 1 → s.ring.ovf = false →
      s.ring.rd ≠ s.ring.wr → s.ring.rd.toNat < s.cfg.n → s.ring.storage.get? s.ring.rd.toNat = some b →
      b = s.ch.delim →
      exec (.rdline size) s = .next { s with
        out := s.out ++ [b] ++ [0x00#8],
        ring := { s.ring with rd := BitVec.ofNat 16 ((s.ring.rd.toNat + 1) % s.cfg.n) },
        cop := .idle, res := resultWord .ok (cnt + 1#16) }) ∧
    (∀ cnt b, s.cop = .rdlineL size cnt → cnt.toNat ≠ size.toNat - 1 → s.ring.ovf = false →
      s.ring.rd ≠ s.ring.wr → s.ring.rd.toNat < s.cfg.n → s.ring.storage.get? s.ring.rd.toNat = some b →
      b ≠ s.ch.delim →
      exec (.rdline size) s = .next { s with
        out := s.out ++ [b], ring := { s.ring with rd := BitVec.ofNat 16 ((s.ring.rd.toNat + 1) % s.cfg.n) },
        cop := .rdlineL size (cnt + 1#16) })

/-- R138: `PEEKLN` answers `OVERFLOW` under the flag, else the distance to and including the nearest delimiter, else
0; it consumes nothing. -/
def Obligations.PeeklnAnswersTheNearestDelimiter : Prop :=
  ∀ s : State, s.cfg.wf → RingInv s → s.cop = .idle →
    (s.ring.ovf = true → exec .peekln s = .next { s with res := resultWord .overflow 0#16 }) ∧
    (∀ d, s.ring.ovf = false → d < s.count → s.slotByte d = some s.ch.delim →
      (∀ j, j < d → s.slotByte j ≠ some s.ch.delim) →
      exec .peekln s = .next { s with res := resultWord .ok (BitVec.ofNat 16 (d + 1)) }) ∧
    (s.ring.ovf = false → (∀ j, j < s.count → s.slotByte j ≠ some s.ch.delim) →
      exec .peekln s = .next { s with res := resultWord .ok 0#16 })

/-- R141: `CLEAR` empties the ring and clears the flag in one step; the storage and all else stay. -/
def Obligations.ClearEmptiesTheRing : Prop :=
  ∀ s : State, s.cop = .idle →
    exec .clear s = .next { s with
      ring := { storage := s.ring.storage, rd := 0#16, wr := 0#16, ovf := false }, res := resultWord .ok 0#16 }

/-- R140: after `CLEAR`, and before a `PUSH`, `COUNT` answers 0 and `ISOVF` answers 0, whatever the state was. -/
def Obligations.ClearThenCountAndIsovfAnswerZero : Prop :=
  ∀ s t : State, s.cfg.wf → exec .clear s = .next t →
    exec .count t = .next { t with res := resultWord .ok 0#16 } ∧
    exec .isovf t = .next { t with res := resultWord .ok 0#16 }

/-- R134: `RDNB` run with no step of P between delivers the first `min(max, count)` stored bytes, one a step, and
completes with that count; it asks no predicate. That the number of steps counts the taking up (log 7), and that port
C goes on when nothing more is scheduled (log 6), is the model's choice. -/
def Obligations.RdnbDeliversWhatIsStored : Prop :=
  ∀ (s : State) (max : Word), Inv s → s.cop = .idle → s.schedule = [.cmdC (encode (.rdnb max))] →
    ∃ t, steps (2 + min max.toNat s.count) s = .next t ∧ t.cop = .idle ∧
      t.res = resultWord .ok (BitVec.ofNat 16 (min max.toNat s.count)) ∧
      t.out = s.out ++ s.contents.take max.toNat ∧ t.contents = s.contents.drop max.toNat ∧
      t.answers = s.answers ∧ t.draws = s.draws ∧ t.tx = s.tx ∧ t.txd = s.txd ∧ t.ch = s.ch ∧
      t.ring.ovf = s.ring.ovf ∧ t.ring.storage = s.ring.storage

/-- R135: `READ` on a non-empty ring, with no step of P between, delivers what is queued up to `max` and does not
wait for more. That the number of steps counts the taking up (log 7), and that port C goes on when nothing more is
scheduled (log 6), is the model's choice. -/
def Obligations.ReadDrainsOneBatch : Prop :=
  ∀ (s : State) (max : Word), Inv s → s.cop = .idle → s.count ≠ 0 →
    s.schedule = [.cmdC (encode (.read max))] →
    ∃ t, steps (3 + min max.toNat s.count) s = .next t ∧ t.cop = .idle ∧
      t.res = resultWord .ok (BitVec.ofNat 16 (min max.toNat s.count)) ∧
      t.out = s.out ++ s.contents.take max.toNat ∧ t.contents = s.contents.drop max.toNat ∧
      t.answers = s.answers ∧ t.draws = s.draws

/-- R139, the spec's inference: `PEEKLN` has answered `(OK, d + 1)`; `RDLINE` is the next command at port C; before
and after it the schedule lists any events, writes of the environment and turns of port C, and `k` more turns follow.
Once port C has had as many turns as there are bytes to deliver, unless a `PUSH` was rejected (then `ring.ovf` is set
at the end), `RDLINE` has completed with those bytes and the terminator, without a wait iteration; with too small a
buffer, with `max_size - 1` bytes, the delimiter still in the ring. That the terminator is the byte 0x00 the spec marks
as general knowledge (log 12). That the taking up is a step of its own (log 7), the list of inputs and the turns after
its end (log 6), and that the environment writes `TXMEM` a byte at an input (log 14), are the model's choices. -/
def Obligations.PeeklnThenRdlineDeliversTheLine : Prop :=
  ∀ (s : State) (size : Word) (d k : Nat) (before after : List Input),
    Inv s → s.cop = .idle → s.ring.ovf = false → d < s.count →
    exec .peekln s = .next { s with res := resultWord .ok (BitVec.ofNat 16 (d + 1)) } →
    s.schedule = before ++ .cmdC (encode (.rdline size)) :: after → (∀ w, .cmdC w ∉ before ++ after) →
    (d + 1 ≤ size.toNat - 1 → d + 1 ≤ after.count .stepC + k →
      ∃ t, steps (s.schedule.length + k) s = .next t ∧
        (s.schedule.filterMap Input.pushed = [] → t.ring.ovf = false) ∧
        (t.ring.ovf = false →
          t.cop = .idle ∧ t.res = resultWord .ok (BitVec.ofNat 16 (d + 1)) ∧
          t.out = s.out ++ s.contents.take (d + 1) ++ [0x00#8] ∧
          t.contents = s.contents.drop (d + 1) ++ s.schedule.filterMap Input.pushed ∧
          t.answers = s.answers ∧ t.draws = s.draws)) ∧
    (1 ≤ size.toNat → size.toNat - 1 < d + 1 → size.toNat ≤ after.count .stepC + k →
      ∃ t, steps (s.schedule.length + k) s = .next t ∧
        (s.schedule.filterMap Input.pushed = [] → t.ring.ovf = false) ∧
        (t.ring.ovf = false →
          t.cop = .idle ∧ t.res = resultWord .ok (BitVec.ofNat 16 (size.toNat - 1)) ∧
          t.out = s.out ++ s.contents.take (size.toNat - 1) ++ [0x00#8] ∧
          t.contents = s.contents.drop (size.toNat - 1) ++ s.schedule.filterMap Input.pushed ∧
          s.ch.delim ∈ s.contents.drop (size.toNat - 1) ∧ t.answers = s.answers ∧ t.draws = s.draws))

/-! ## The transmit sequencer (42_transmit_sequencer) -/

/-- R171: every step of `START` but its being taken up: the operand test when presented; busy, zero length, or arm and
prime at `S0`; finished, timeout or one more wait at `S1`. -/
def Obligations.StartSteps : Prop :=
  ∀ (s : State) (a n : Word),
    (s.cop = .idle → 0x10000 < a.toNat + n.toNat →
      exec (.start a n) s = .next { s with res := resultWord .illegal 0#16 }) ∧
    (s.cop = .startS0 a n → s.tx.fin = false →
      exec (.start a n) s = .next { s with cop := .idle, res := resultWord .busy 0#16 }) ∧
    (s.cop = .startS0 a n → s.tx.fin = true → n = 0#16 →
      exec (.start a n) s = .next { s with cop := .idle, res := resultWord .ok 0#16 }) ∧
    (s.cop = .startS0 a n → s.tx.fin = true → n ≠ 0#16 → s.ch.mode = .nonblocking →
      exec (.start a n) s = .next { s with
        tx := { base := a, len := n, sent := 1#16, fin := false }, txd := s.txd ++ [txByte s.txmem a.toNat],
        cop := .idle, res := resultWord .ok 0#16 }) ∧
    (s.cop = .startS0 a n → s.tx.fin = true → n ≠ 0#16 → s.ch.mode = .blocking →
      exec (.start a n) s = .next { s with
        tx := { base := a, len := n, sent := 1#16, fin := false }, txd := s.txd ++ [txByte s.txmem a.toNat],
        cop := .startS1 a n }) ∧
    (s.cop = .startS1 a n → s.tx.fin = true →
      exec (.start a n) s = .next { s with cop := .idle, res := resultWord .ok s.tx.len }) ∧
    (∀ t, s.cop = .startS1 a n → s.tx.fin = false → Asked s true t →
      exec (.start a n) s = .next { t with
        tx := { t.tx with fin := true }, cop := .idle, res := resultWord .timeout s.tx.sent }) ∧
    (∀ t, s.cop = .startS1 a n → s.tx.fin = false → Asked s false t → exec (.start a n) s = .next t)

/-- `TXEV` (42_transmit_sequencer section 3) does nothing in `Idle` (the spec's inference, "the guard on `tx.fin` rather
than on `tx.sent == tx.len` is what they require"); in `Sending` it pushes `min(K, len - sent)` bytes in ascending
order, each as `TXMEM` holds it now, and finishes exactly when `tx.sent` reaches `tx.len`. -/
def Obligations.TxevPushesOneBurst : Prop :=
  ∀ s : State, s.cfg.wf → s.tx.sent.toNat ≤ s.tx.len.toNat → s.tx.base.toNat + s.tx.len.toNat ≤ 0x10000 →
    (s.tx.fin = true → exec .txev s = .next s) ∧
    (∀ n, s.tx.fin = false → n = min s.cfg.k (s.tx.len.toNat - s.tx.sent.toNat) →
      exec .txev s = .next { s with
        txd := s.txd ++
          (List.range n).map (fun i => txByte s.txmem (s.tx.base.toNat + s.tx.sent.toNat + i)),
        tx := { s.tx with
          sent := BitVec.ofNat 16 (s.tx.sent.toNat + n), fin := decide (s.tx.sent.toNat + n = s.tx.len.toNat) } })

/-- R173: `ISFIN` answers `tx.fin`. -/
def Obligations.IsfinAnswersTheFlag : Prop :=
  ∀ s : State, s.cop = .idle →
    exec .isfin s = .next { s with res := resultWord .ok (if s.tx.fin then 1#16 else 0#16) }

/-- R174: `CLRTX` sets `tx.fin` and nothing else of the sequencer or the streams. -/
def Obligations.ClrtxAbandonsTheTransmission : Prop :=
  ∀ s : State, s.cop = .idle →
    exec .clrtx s = .next { s with tx := { s.tx with fin := true }, res := resultWord .ok 0#16 }

/-- R175, with R171 and R172: after a `START` of `L` bytes has armed and primed, in either mode, `tx.fin` is set exactly
when `max(1, ceil((L - 1) / K))` events have come, and `TXD` has received `TXMEM[a ..]` in order, offset 0 first. A
non-blocking `START` has completed with `(OK, 0)`; a blocking one waits at `S1`, and, once `tx.fin` is set, its next step
completes with `(OK, L)`. That the taking up is a step of its own (log 7) and the list of inputs (log 6) are the
model's. -/
def Obligations.TransmissionNeedsThatManyEvents : Prop :=
  ∀ (s : State) (a n : Word) (e : Nat), s.cfg.wf → s.cop = .idle → s.tx.fin = true →
    n ≠ 0#16 → a.toNat + n.toNat ≤ 0x10000 →
    s.schedule = .cmdC (encode (.start a n)) :: .stepC :: List.replicate e (.cmdP (encode .txev)) →
    ∃ t, steps (2 + e) s = .next t ∧
      (t.tx.fin = true ↔ max 1 ((n.toNat - 1 + (s.cfg.k - 1)) / s.cfg.k) ≤ e) ∧
      t.tx.sent.toNat = min (1 + e * s.cfg.k) n.toNat ∧
      t.txd = s.txd ++
        (List.range (min (1 + e * s.cfg.k) n.toNat)).map (fun i => txByte s.txmem (a.toNat + i)) ∧
      t.ring = s.ring ∧ t.out = s.out ∧
      (s.ch.mode = .nonblocking → t.cop = .idle ∧ t.res = resultWord .ok 0#16) ∧
      (s.ch.mode = .blocking → t.cop = .startS1 a n ∧ t.res = s.res ∧
        (t.tx.fin = true → step t = .next { t with cop := .idle, res := resultWord .ok n }))

/-- R29: which operation changes `tx.fin`, in which state, and in which direction. -/
def Obligations.OnlyTheseOperationsChangeFin : Prop :=
  ∀ (i : Instr) (s t : State), exec i s = .next t →
    (s.tx.fin = true → t.tx.fin = false →
      ∃ a n, i = .start a n ∧ s.cop = .startS0 a n ∧ n ≠ 0#16) ∧
    (s.tx.fin = false → t.tx.fin = true →
      (i = .txev ∧ t.tx.sent = t.tx.len) ∨ i = .clrtx ∨
      ∃ a n, i = .start a n ∧ s.cop = .startS1 a n ∧ t.cop = .idle ∧ t.res = resultWord .timeout s.tx.sent)

/-! ## The Channel (43_channel) -/

/-- R190: `SETMODE` writes `ch.mode` and nothing else but `RES`. -/
def Obligations.SetmodeWritesTheMode : Prop :=
  ∀ (s : State) (m : Mode), s.cop = .idle →
    exec (.setmode m) s = .next { s with ch := { s.ch with mode := m }, res := resultWord .ok 0#16 }

/-- R191: `SETDELIM` writes `ch.delim` and nothing else but `RES`. -/
def Obligations.SetdelimWritesTheDelimiter : Prop :=
  ∀ (s : State) (b : Byte), s.cop = .idle →
    exec (.setdelim b) s = .next { s with ch := { s.ch with delim := b }, res := resultWord .ok 0#16 }

/-! ## Rules of the whole machine -/

/-- R33: who may write what, with the table's qualifications: `ring.rd` moves only in a drain step, by one slot and with
the byte of that slot handed out, or in `CLEAR`; `tx.base` and `tx.len` are written only by a `START` that is accepted
with a length above 0; `TXEV` adds to `tx.sent` and an accepted `START` sets it to 1; `START` clears `tx.fin` on
acceptance and sets it on a timeout. No operation writes the constants, `TXMEM` or the schedule. -/
def Obligations.MutationRights : Prop :=
  ∀ (i : Instr) (s t : State), exec i s = .next t →
    (∀ a, t.ring.storage.get? a ≠ s.ring.storage.get? a → (∃ b, i = .push b) ∧ a = s.ring.wr.toNat) ∧
    (t.ring.wr ≠ s.ring.wr → (∃ b, i = .push b) ∨ i = .clear) ∧
    (s.ring.ovf = false → t.ring.ovf = true → ∃ b, i = .push b) ∧
    (s.ring.ovf = true → t.ring.ovf = false → i = .clear) ∧
    (t.ring.rd ≠ s.ring.rd →
      ((∃ max n cnt, i = .rdnb max ∧ s.cop = .rdnbD max n cnt) ∨ (∃ max cnt, i = .read max ∧ s.cop = .readD max cnt) ∨
        (∃ max total cnt, i = .readf max ∧ s.cop = .readfD max total cnt) ∨
        (∃ size cnt, i = .rdline size ∧ s.cop = .rdlineL size cnt)) ∧
        t.ring.rd = BitVec.ofNat 16 ((s.ring.rd.toNat + 1) % s.cfg.n) ∧
        (∃ b rest, s.ring.storage.get? s.ring.rd.toNat = some b ∧ t.out = s.out ++ b :: rest) ∨
      i = .clear) ∧
    (t.tx.base ≠ s.tx.base ∨ t.tx.len ≠ s.tx.len →
      ∃ a n, i = .start a n ∧ s.cop = .startS0 a n ∧ s.tx.fin = true ∧ n ≠ 0#16 ∧ t.tx.base = a ∧ t.tx.len = n) ∧
    (t.tx.sent ≠ s.tx.sent →
      (i = .txev ∧ s.tx.fin = false ∧ t.tx.sent = BitVec.ofNat 16
        (s.tx.sent.toNat + min s.cfg.k (s.tx.len.toNat - s.tx.sent.toNat))) ∨
      (∃ a n, i = .start a n ∧ s.cop = .startS0 a n ∧ s.tx.fin = true ∧ n ≠ 0#16 ∧ t.tx.sent = 1#16)) ∧
    (s.tx.fin = true → t.tx.fin = false → ∃ a n, i = .start a n ∧ s.cop = .startS0 a n ∧ n ≠ 0#16) ∧
    (s.tx.fin = false → t.tx.fin = true → i = .txev ∨ i = .clrtx ∨
      ∃ a n s', i = .start a n ∧ s.cop = .startS1 a n ∧ Asked s true s' ∧ t.cop = .idle ∧
        t.res = resultWord .timeout s.tx.sent) ∧
    (t.ch.mode ≠ s.ch.mode → ∃ m, i = .setmode m) ∧
    (t.ch.delim ≠ s.ch.delim → ∃ b, i = .setdelim b) ∧
    (t.cop ≠ s.cop → i.port = .C) ∧
    t.cfg = s.cfg ∧ t.txmem = s.txmem ∧ t.schedule = s.schedule

/-- R35, R207: an event's operation leaves the mainline's side untouched: `cop` and its locals, `RES`, `OUT`, the
registers only C writes, `TXMEM`, and the environment's answers; and what it does depends on none of `cop`, `RES`,
`OUT`, `ch`, the answers and what is scheduled next. (`PUSH` does read `ring.rd`, and `TXEV` reads `tx.base`, `tx.len` and
`TXMEM`.) -/
def Obligations.EventLeavesTheMainlineUntouched : Prop :=
  ∀ (i : Instr) (s t : State), i.port = .P → exec i s = .next t →
    t.cop = s.cop ∧ t.res = s.res ∧ t.out = s.out ∧ t.ch = s.ch ∧ t.ring.rd = s.ring.rd ∧
    t.tx.base = s.tx.base ∧ t.tx.len = s.tx.len ∧ t.txmem = s.txmem ∧ t.answers = s.answers ∧ t.draws = s.draws ∧
    ∀ (c : Cop) (r : ResWord) (o : List Byte) (h : Chan) (l : List Input) (y : List Bool) (k : Nat),
      exec i { s with cop := c, res := r, out := o, ch := h, schedule := l, answers := y, draws := k } =
        .next { t with cop := c, res := r, out := o, ch := h, schedule := l, answers := y, draws := k }

/-- R24: `ring.ovf` is sticky: it is set by a `PUSH` on a full ring and by nothing else, and only `CLEAR` clears
it. -/
def Obligations.OverflowIsSticky : Prop :=
  ∀ (i : Instr) (s t : State), exec i s = .next t →
    (t.ring.ovf = true ↔ i ≠ .clear ∧ (s.ring.ovf = true ∨
      ((∃ b, i = .push b) ∧ BitVec.ofNat 16 ((s.ring.wr.toNat + 1) % s.cfg.n) = s.ring.rd)))

/-- R201: the table of statuses is complete: a port-C operation that ends does so with a listed status, for its
listed cause, with its listed value, leaving the listed state; `ISOVF` reports the flag with `OK`. That the terminator
of `RDLINE` is the byte 0x00 the spec marks as general knowledge (log 12). -/
def Obligations.StatusTableIsComplete : Prop :=
  ∀ (i : Instr) (s t : State), i.port = .C → exec i s = .next t → t.cop = .idle →
    ∃ (st : Status) (v : Word), t.res = resultWord st v ∧
      (st = .busy → ∃ a n, i = .start a n ∧ s.cop = .startS0 a n ∧ s.tx.fin = false ∧ v = 0#16 ∧
        t = { s with cop := .idle, res := t.res }) ∧
      (st = .overflow → i = .peekln ∧ s.ring.ovf = true ∧ v = 0#16 ∧ t = { s with res := t.res }) ∧
      (st = .timeout → ∃ s', Asked s true s' ∧
        ((∃ max, i = .read max ∧ s.cop = .readW max ∧ s.ring.rd = s.ring.wr ∧ v = 0#16 ∧
            t = { s' with cop := .idle, res := t.res }) ∨
         (∃ max total cnt, i = .readf max ∧ s.cop = .readfW max total cnt ∧ s.ring.rd = s.ring.wr ∧ v = total ∧
            t = { s' with cop := .idle, res := t.res }) ∨
         (∃ size cnt, i = .rdline size ∧ s.cop = .rdlineL size cnt ∧ s.ring.rd = s.ring.wr ∧ v = cnt ∧
            t = { s' with cop := .idle, out := s.out ++ [0x00#8], res := t.res }) ∨
         (∃ a n, i = .start a n ∧ s.cop = .startS1 a n ∧ s.tx.fin = false ∧ v = s.tx.sent ∧
            t = { s' with cop := .idle, tx := { s.tx with fin := true }, res := t.res }))) ∧
      (st = .badline → ∃ size cnt, i = .rdline size ∧ s.cop = .rdlineL size cnt ∧ s.ring.ovf = true ∧ v = cnt ∧
        t = { s with cop := .idle, out := s.out ++ [0x00#8], res := t.res }) ∧
      (st = .illegal → (i = .rdline 0#16 ∨ ∃ a n : Word, i = .start a n ∧ 0x10000 < a.toNat + n.toNat) ∧ v = 0#16 ∧
        t = { s with res := t.res }) ∧
      (i = .isovf → st = .ok ∧ (v = 1#16 ↔ s.ring.ovf = true) ∧ (v = 0#16 ↔ s.ring.ovf = false) ∧
        t = { s with res := t.res })

/-- R101, R133, R137: the predicate is asked only in an iteration that would otherwise wait (for `RDLINE`: below its
size limit, without overflow, on an empty ring), at most once in a step; and without `HAS_TIMEOUT` it never answers
true: no operation of port C ends with `TIMEOUT`. -/
def Obligations.PredicateAskedOnlyWhileWaiting : Prop :=
  ∀ (i : Instr) (s t : State), exec i s = .next t →
    ((t.answers = s.answers ∧ t.draws = s.draws) ∨
     (s.cfg.hasTimeout = true ∧
      ((∃ b, s.answers = b :: t.answers ∧ t.draws = s.draws) ∨
       (s.answers = [] ∧ t.answers = [] ∧ t.draws = s.draws + 1)) ∧
      (((∃ max, s.cop = .readW max ∧ i = .read max) ∨ (∃ max total cnt, s.cop = .readfW max total cnt ∧ i = .readf max) ∨
        (∃ size cnt, s.cop = .rdlineL size cnt ∧ i = .rdline size ∧ cnt.toNat ≠ size.toNat - 1 ∧
          s.ring.ovf = false)) ∧ s.ring.rd = s.ring.wr ∨
       (∃ a n, s.cop = .startS1 a n ∧ i = .start a n ∧ s.tx.fin = false)))) ∧
    (i.port = .C → t.cop = .idle → resStatus t.res = Status.timeout.code → s.cfg.hasTimeout = true)

/-- R243: without a predicate and with no event, a blocking operation takes wait iterations for ever. That it takes
another iteration although no event comes rests on the model's `Idle()`, which returns at once (log 13, unsafe for such
a claim), and on port C going on when nothing is scheduled (log 6): the model's choices. -/
def Obligations.BlockedOperationWaitsForEver : Prop :=
  ∀ (s : State) (k : Nat), s.schedule = [] → s.cfg.hasTimeout = false →
    ((∃ max, s.cop = .readW max) ∧ s.ring.rd = s.ring.wr ∨
     (∃ max total cnt, s.cop = .readfW max total cnt) ∧ s.ring.rd = s.ring.wr ∨
     (∃ size cnt, s.cop = .rdlineL size cnt ∧ cnt.toNat ≠ size.toNat - 1) ∧ s.ring.ovf = false ∧
       s.ring.rd = s.ring.wr ∨
     (∃ a n, s.cop = .startS1 a n) ∧ s.tx.fin = false) →
    steps k s = .next s

/-- R74 (a): adjacent `PUSH` and `TXEV` give the same state in either order. -/
def Obligations.PushAndTxevCommute : Prop :=
  ∀ (s t u : State) (b : Byte), exec (.push b) s = .next t → exec .txev s = .next u →
    ∃ v, exec .txev t = .next v ∧ exec (.push b) u = .next v

/-- R74 (b): the byte that a drain step delivers is the same before and after an adjacent `PUSH`. -/
def Obligations.PushDoesNotDisturbTheDrainedByte : Prop :=
  ∀ (s u : State) (b : Byte), s.cfg.wf → RingInv s → s.count ≠ 0 → exec (.push b) s = .next u →
    ∃ x s' u', drainOne s = .ok (x, s') ∧ drainOne u = .ok (x, u') ∧ s'.out = s.out ++ [x] ∧ u'.out = u.out ++ [x]

/-- R66: `COUNT`, `ISOVF`, `ISFIN` and `PEEKLN` change nothing but `RES`, and asked again they answer the same. -/
def Obligations.QueriesAreIdempotent : Prop :=
  ∀ (i : Instr) (s t : State), i = .count ∨ i = .isovf ∨ i = .isfin ∨ i = .peekln → exec i s = .next t →
    t = { s with res := t.res } ∧ exec i t = .next t

/-- R63, R69, R132: one step moves bytes through the ring first in, first out: what was stored, then what is
accepted, is what is delivered, then what is stored afterwards; at most one byte is delivered, and `OUT` grows by it and
at most one terminator. That the terminator is the byte 0x00 the spec marks as general knowledge (log 12). -/
def Obligations.EachStepKeepsFifoOrder : Prop :=
  ∀ s t : State, Inv s → step s = .next t → (∀ rest, s.schedule ≠ .cmdC (encode .clear) :: rest) →
    ∃ accepted delivered ending, s.contents ++ accepted = delivered ++ t.contents ∧ delivered.length ≤ 1 ∧
      t.out = s.out ++ delivered ++ ending ∧ (ending = [] ∨ ending = [0x00#8]) ∧
      (accepted = (s.schedule.take 1).filterMap Input.pushed ∨
        accepted = [] ∧ s.count = s.cfg.n - 1 ∧ t.ring.ovf = true)

/-- R63, R120: over any run without `CLEAR`, from any state of the invariant: the bytes delivered, then those still
stored, are those stored at first, then a subsequence of the bytes given to `PUSH` in order, all of them if the flag
is not set at the end. -/
def Obligations.RunDeliversThePushedBytesInOrder : Prop :=
  ∀ (k : Nat) (s t : State), Inv s → steps k s = .next t → .cmdC (encode .clear) ∉ s.schedule →
    ∃ accepted delivered, s.contents ++ accepted = delivered ++ t.contents ∧
      accepted.Sublist ((s.schedule.take k).filterMap Input.pushed) ∧
      (t.ring.ovf = false → accepted = (s.schedule.take k).filterMap Input.pushed) ∧
      ∃ grown, t.out = s.out ++ grown ∧ delivered.Sublist grown

/-- R35: `OUT` and `TXD` only grow. -/
def Obligations.StreamsOnlyGrow : Prop :=
  ∀ s t : State, step s = .next t → (∃ o, t.out = s.out ++ o) ∧ (∃ d, t.txd = s.txd ++ d)

/-- R60, R39: the block never writes `TXMEM` and never changes a parameter. That the environment writes `TXMEM` one byte
at an input, so that a byte changes by the input that names it and by no other, is the model's choice (log 14). -/
def Obligations.TxmemAndParametersAreNotTheBlocks : Prop :=
  ∀ s t : State, step s = .next t → t.cfg = s.cfg ∧
    ((∀ a b rest, s.schedule ≠ .envWrite a b :: rest) → ∀ x, txByte t.txmem x = txByte s.txmem x) ∧
    (∀ a b rest, s.schedule = .envWrite a b :: rest → s.txmem.wf = true →
      ∀ x, txByte t.txmem x = if x = a.toNat then b else txByte s.txmem x)

/-! ## Reset and the invariant (10_state R25, R30, R38) -/

/-- The state after construction (10_state section 8), for every choice of parameters, and that `State.reset` is such a
state. What is left unspecified there (`tx.base`, `RES`) is not said; a slot of the ring has no value. That newline is
0x0A the spec marks as general knowledge (log 12). -/
def Obligations.ResetState : Prop :=
  (∀ p : Params, (State.construct p).cfg = p ∧
    (State.construct p).ring.rd = 0#16 ∧ (State.construct p).ring.wr = 0#16 ∧ (State.construct p).ring.ovf = false ∧
    (∀ i, (State.construct p).ring.storage.get? i = none) ∧
    (State.construct p).tx.fin = true ∧ (State.construct p).tx.len = 0#16 ∧ (State.construct p).tx.sent = 0#16 ∧
    (State.construct p).ch.delim = 0x0A#8 ∧ (State.construct p).ch.mode = .blocking ∧
    (State.construct p).cop = .idle ∧ (State.construct p).out = [] ∧ (State.construct p).txd = []) ∧
  ∃ p : Params, p.wf ∧ State.reset = State.construct p

/-- The invariant holds after construction, for all parameters in range, and at `State.reset`. -/
def Obligations.InvariantHoldsAtReset : Prop :=
  (∀ p : Params, p.wf → Inv (State.construct p)) ∧ Inv State.reset

/-- R25, R30, R34: every step keeps the invariant: indices in range, the storage and `TXMEM` in canonical form, every
stored slot written, the sequencer's counters and the locals of the operation in progress within their bounds. -/
def Obligations.EveryStepKeepsTheInvariant : Prop :=
  ∀ s t : State, Inv s → step s = .next t → Inv t

/-- R38, R61, R62: from a state of the invariant no step faults, and the one refusal is of a command at a busy
port C. -/
def Obligations.NoStepFaults : Prop :=
  ∀ s : State, Inv s →
    (∃ t, step s = .next t) ∨
    (step s = .refused .portCBusy ∧ s.cop ≠ .idle ∧ ∃ w rest, s.schedule = .cmdC w :: rest)
end

