-- ==== Sys2Proof/Laws/Memory.lean ====
section
/-! SUPPORT. The laws of the two memories: a read after a write, and that every operation keeps the canonical
form. -/

namespace Sys2Proof.Machine

@[simp] theorem Memory.get?_nil (x : Nat) : Memory.get? [] x = none := rfl

theorem Memory.get?_cons (a : Nat) (b : Byte) (m : Memory) (x : Nat) :
    Memory.get? ((a, b) :: m) x = if x = a then some b else m.get? x := rfl

theorem Memory.risingFrom_cons (lo a : Nat) (b : Byte) (m : Memory) :
    Memory.risingFrom lo ((a, b) :: m) = true ↔ lo ≤ a ∧ Memory.risingFrom (a + 1) m = true := by
  simp [Memory.risingFrom]

theorem Memory.risingFrom_weaken {lo lo' : Nat} (h : lo' ≤ lo) {m : Memory}
    (hm : Memory.risingFrom lo m = true) : Memory.risingFrom lo' m = true := by
  cases m with
  | nil => rfl
  | cons c m =>
    obtain ⟨a, b⟩ := c
    rw [Memory.risingFrom_cons] at hm ⊢
    exact ⟨by omega, hm.2⟩

theorem Memory.get?_below {lo : Nat} {m : Memory} (hm : Memory.risingFrom lo m = true) {x : Nat}
    (hx : x < lo) : m.get? x = none := by
  induction m generalizing lo with
  | nil => rfl
  | cons c m ih =>
    obtain ⟨a, b⟩ := c
    rw [Memory.risingFrom_cons] at hm
    rw [Memory.get?_cons, if_neg (by omega)]
    exact ih hm.2 (by omega)

@[simp] theorem Memory.get?_set_same (m : Memory) (x : Nat) (v : Byte) : (m.set x v).get? x = some v := by
  induction m with
  | nil => simp [Memory.set, Memory.get?_cons]
  | cons c m ih =>
    obtain ⟨a, b⟩ := c
    unfold Memory.set
    split
    · simp [Memory.get?_cons]
    · split
      · simp [Memory.get?_cons]
      · rename_i hne
        rw [Memory.get?_cons, if_neg hne, ih]

theorem Memory.get?_set_ne {m : Memory} {x y : Nat} (h : y ≠ x) (v : Byte) :
    (m.set x v).get? y = m.get? y := by
  induction m with
  | nil => simp [Memory.set, Memory.get?_cons, h]
  | cons c m ih =>
    obtain ⟨a, b⟩ := c
    unfold Memory.set
    split
    · rw [Memory.get?_cons, if_neg h]
    · split
      · rename_i hxa
        subst hxa
        rw [Memory.get?_cons, if_neg h, Memory.get?_cons, if_neg h]
      · rw [Memory.get?_cons, Memory.get?_cons, ih]

theorem Memory.risingFrom_set {lo : Nat} {m : Memory} (hm : Memory.risingFrom lo m = true) {x : Nat}
    (hx : lo ≤ x) (v : Byte) : Memory.risingFrom lo (m.set x v) = true := by
  induction m generalizing lo with
  | nil => rw [Memory.set, Memory.risingFrom_cons]; exact ⟨hx, rfl⟩
  | cons c m ih =>
    obtain ⟨a, b⟩ := c
    rw [Memory.risingFrom_cons] at hm
    unfold Memory.set
    split
    · rw [Memory.risingFrom_cons, Memory.risingFrom_cons]
      exact ⟨hx, by omega, hm.2⟩
    · split
      · rename_i hxa
        subst hxa
        rw [Memory.risingFrom_cons]
        exact hm
      · rw [Memory.risingFrom_cons]
        exact ⟨hm.1, ih hm.2 (by omega)⟩

theorem Memory.mem_set {m : Memory} {x : Nat} {v : Byte} {c : Host.Cell} (h : c ∈ m.set x v) :
    c = (x, v) ∨ c ∈ m := by
  induction m with
  | nil => simpa [Memory.set] using h
  | cons d m ih =>
    obtain ⟨a, b⟩ := d
    unfold Memory.set at h
    split at h
    · simpa using h
    · split at h
      · rcases List.mem_cons.1 h with h | h
        · exact .inl h
        · exact .inr (List.mem_cons_of_mem _ h)
      · rcases List.mem_cons.1 h with h | h
        · exact .inr (h ▸ List.mem_cons_self)
        · exact (ih h).imp id (List.mem_cons_of_mem _)

/-- A slot written in range keeps the storage's canonical form. -/
theorem Memory.ringWf_set {n : Nat} {m : Memory} (hm : m.ringWf n = true) {x : Nat} (hx : x < n) (v : Byte) :
    (m.set x v).ringWf n = true := by
  simp only [Memory.ringWf, Bool.and_eq_true, List.all_eq_true, decide_eq_true_eq] at hm ⊢
  refine ⟨Memory.risingFrom_set hm.1 (Nat.zero_le x) v, fun c hc => ?_⟩
  rcases Memory.mem_set hc with rfl | hc
  · exact hx
  · exact hm.2 c hc

theorem Memory.risingFrom_drop {lo : Nat} {m : Memory} (hm : Memory.risingFrom lo m = true) (x : Nat) :
    Memory.risingFrom lo (m.drop x) = true := by
  induction m generalizing lo with
  | nil => rfl
  | cons c m ih =>
    obtain ⟨a, b⟩ := c
    rw [Memory.risingFrom_cons] at hm
    unfold Memory.drop
    split
    · exact Memory.risingFrom_weaken (by omega) hm.2
    · rw [Memory.risingFrom_cons]
      exact ⟨hm.1, ih hm.2⟩

theorem Memory.mem_drop {m : Memory} {x : Nat} {c : Host.Cell} (h : c ∈ m.drop x) : c ∈ m := by
  induction m with
  | nil => exact h
  | cons d m ih =>
    obtain ⟨a, b⟩ := d
    unfold Memory.drop at h
    split at h
    · exact List.mem_cons_of_mem _ h
    · rcases List.mem_cons.1 h with h | h
      · exact h ▸ List.mem_cons_self
      · exact List.mem_cons_of_mem _ (ih h)

theorem Memory.get?_drop_ne {m : Memory} {x y : Nat} (h : y ≠ x) : (m.drop x).get? y = m.get? y := by
  induction m with
  | nil => rfl
  | cons c m ih =>
    obtain ⟨a, b⟩ := c
    unfold Memory.drop
    split
    · rename_i hxa
      subst hxa
      rw [Memory.get?_cons, if_neg h]
    · rw [Memory.get?_cons, Memory.get?_cons, ih]

theorem Memory.get?_drop_same {lo : Nat} {m : Memory} (hm : Memory.risingFrom lo m = true) (x : Nat) :
    (m.drop x).get? x = none := by
  induction m generalizing lo with
  | nil => rfl
  | cons c m ih =>
    obtain ⟨a, b⟩ := c
    rw [Memory.risingFrom_cons] at hm
    unfold Memory.drop
    split
    · rename_i hxa
      subst hxa
      exact Memory.get?_below hm.2 (by omega)
    · rename_i hxa
      rw [Memory.get?_cons, if_neg hxa]
      exact ih hm.2

theorem Memory.wf_iff (m : Memory) : m.wf = true ↔
    Memory.risingFrom 0 m = true ∧ ∀ c ∈ m, c.1 < 65536 ∧ c.2 ≠ Config.txmemUnwritten := by
  simp only [Memory.wf, Bool.and_eq_true, List.all_eq_true, decide_eq_true_eq, bne_iff_ne]
  exact Iff.rfl

/-- A byte of `TXMEM` that ENV writes keeps the canonical form. -/
theorem envWrite_wf {s : State} (hs : s.txmem.wf = true) (a : Word) (b : Byte) :
    (envWrite s a b).txmem.wf = true := by
  rw [Memory.wf_iff] at hs ⊢
  unfold envWrite
  dsimp only
  split
  · exact ⟨Memory.risingFrom_drop hs.1 _, fun c hc => hs.2 c (Memory.mem_drop hc)⟩
  · rename_i hb
    refine ⟨Memory.risingFrom_set hs.1 (Nat.zero_le _) b, fun c hc => ?_⟩
    rcases Memory.mem_set hc with rfl | hc
    · exact ⟨a.isLt, hb⟩
    · exact hs.2 c hc

/-- `TXMEM` after a write by ENV: the byte written at its address, every other byte as before. -/
theorem txByte_envWrite {s : State} (hs : s.txmem.wf = true) (a : Word) (b : Byte) (x : Nat) :
    txByte (envWrite s a b).txmem x = if x = a.toNat then b else txByte s.txmem x := by
  rw [Memory.wf_iff] at hs
  unfold envWrite txByte
  dsimp only
  split
  · rename_i hb
    split
    · rename_i hx
      subst hx
      rw [Memory.get?_drop_same hs.1, hb]
      rfl
    · rename_i hx
      rw [Memory.get?_drop_ne hx]
  · split
    · rename_i hx
      subst hx
      rw [Memory.get?_set_same]
      rfl
    · rename_i hx
      rw [Memory.get?_set_ne hx]

end Sys2Proof.Machine
end

