-- ==== Sys2Proof/Laws/Ring.lean ====
section
/-! SUPPORT. The index arithmetic of the ring (00_scope R7, 10_state R25): counts, the slots of the stored region,
and how both move when an index advances. -/

namespace Sys2Proof.Machine

/-- `residue` is the mathematical residue of R7. -/
theorem residue_cast (a b : Nat) {n : Nat} (hn : 0 < n) : ((residue a b n : Nat) : Int) = ((a : Int) - b) % n := by
  unfold residue
  exact Int.toNat_of_nonneg (Int.emod_nonneg _ (by omega))

/-- R7: for `a`, `b` in `[0, n)` the residue is `a - b`, or `a - b + n` when `a < b`. -/
theorem residue_eq {a b n : Nat} (ha : a < n) (hb : b < n) :
    residue a b n = if b ≤ a then a - b else a + n - b := by
  have h := residue_cast a b (n := n) (by omega)
  split
  · rw [Int.emod_eq_of_lt (by omega) (by omega)] at h
    omega
  · rw [← Int.add_emod_right, Int.emod_eq_of_lt (by omega) (by omega)] at h
    omega

theorem residue_lt (a b : Nat) {n : Nat} (hn : 0 < n) : residue a b n < n := by
  have h := residue_cast a b hn
  have := Int.emod_lt_of_pos ((a : Int) - b) (by omega : (0 : Int) < n)
  omega

/-- The index after `i`: `i + 1`, or 0 at the end. -/
theorem nextIndex_toNat {n : Nat} {i : Word} (hi : i.toNat < n) (hn : n ≤ 65536) :
    (nextIndex n i).toNat = if i.toNat + 1 = n then 0 else i.toNat + 1 := by
  unfold nextIndex
  split
  · rename_i h
    simp [h]
  · rw [Nat.mod_eq_of_lt (by omega), BitVec.toNat_ofNat]
    omega

theorem nextIndex_lt {n : Nat} {i : Word} (hi : i.toNat < n) (hn : n ≤ 65536) : (nextIndex n i).toNat < n := by
  rw [nextIndex_toNat hi hn]
  split <;> omega

theorem mod_wrap {a n : Nat} (ha : a < n + n) : a % n = if a < n then a else a - n := by
  split
  · exact Nat.mod_eq_of_lt ‹_›
  · rw [Nat.mod_eq_sub_mod (by omega), Nat.mod_eq_of_lt (by omega)]

section
variable {s : State} (hp : s.cfg.wf) (hr : RingInv s)
include hr

theorem count_eq : s.count =
    if s.ring.rd.toNat ≤ s.ring.wr.toNat then s.ring.wr.toNat - s.ring.rd.toNat
    else s.ring.wr.toNat + s.cfg.n - s.ring.rd.toNat :=
  residue_eq hr.wr_lt hr.rd_lt

theorem count_lt : s.count < s.cfg.n := residue_lt _ _ (by have := hr.rd_lt; omega)

/-- The ring is empty exactly when its count is 0 (R25, R130). -/
theorem ringEmpty_iff : s.ringEmpty = true ↔ s.count = 0 := by
  have hc := count_eq hr
  have h1 := hr.rd_lt
  have h2 := hr.wr_lt
  simp only [State.ringEmpty, beq_iff_eq, ← BitVec.toNat_inj]
  split at hc <;> omega

include hp in
/-- The ring is full exactly when it holds `N - 1` bytes (R25). -/
theorem ringFull_iff : s.ringFull = true ↔ s.count = s.cfg.n - 1 := by
  have hc := count_eq hr
  have h1 := hr.rd_lt
  have h2 := hr.wr_lt
  simp only [State.ringFull, beq_iff_eq, ← BitVec.toNat_inj, nextIndex_toNat h2 hp.1.2]
  have := hp.1.1
  split at hc <;> split <;> omega

theorem slotAt_eq {k : Nat} (hk : k < s.cfg.n) :
    s.slotAt k = if s.ring.rd.toNat + k < s.cfg.n then s.ring.rd.toNat + k else s.ring.rd.toNat + k - s.cfg.n :=
  mod_wrap (by have := hr.rd_lt; omega)

theorem slotAt_lt (k : Nat) : s.slotAt k < s.cfg.n := Nat.mod_lt _ (by have := hr.rd_lt; omega)

theorem slotAt_zero : s.slotAt 0 = s.ring.rd.toNat := Nat.mod_eq_of_lt hr.rd_lt

/-- The slot after the stored region is `ring.wr`, the one slot outside it when the ring is full (R25). -/
theorem slotAt_count : s.slotAt s.count = s.ring.wr.toNat := by
  rw [slotAt_eq hr (count_lt hr)]
  have hc := count_eq hr
  have h1 := hr.rd_lt
  have h2 := hr.wr_lt
  split at hc <;> split <;> omega

/-- Distances below `N` name distinct slots. -/
theorem slotAt_inj {j k : Nat} (hj : j < s.cfg.n) (hk : k < s.cfg.n) (h : s.slotAt j = s.slotAt k) : j = k := by
  rw [slotAt_eq hr hj, slotAt_eq hr hk] at h
  have h1 := hr.rd_lt
  split at h <;> split at h <;> omega

/-- A `PUSH` writes no slot of the stored region (R74 (b)). -/
theorem slotAt_ne_wr {k : Nat} (hk : k < s.count) : s.slotAt k ≠ s.ring.wr.toNat := by
  rw [← slotAt_count hr]
  exact fun h => absurd (slotAt_inj hr (by have := count_lt hr; omega) (count_lt hr) h) (by omega)

/-- A stored slot is read without a fault (R38). -/
theorem ringRead_stored {k : Nat} (hk : k < s.count) : ∃ b, s.slotByte k = some b ∧ ringRead s (s.slotAt k) = .ok b := by
  obtain ⟨b, hb⟩ := Option.isSome_iff_exists.1 (hr.stored_written k hk)
  have hg : s.ring.storage.get? (s.slotAt k) = some b := hb
  exact ⟨b, hb, by simp [ringRead, slotAt_lt hr k, hg]⟩

end

end Sys2Proof.Machine
end

