-- ==== Sys2Proof/Laws/State.lean ====
section
/-! SUPPORT. One lemma for each field of each update of the state, true by `rfl`, so that no proof unfolds a record
update. -/

namespace Sys2Proof.Machine

@[simp] theorem complete_cfg (s : State) (st : Status) (v : Word) : (complete s st v).cfg = s.cfg := rfl
@[simp] theorem complete_ring (s : State) (st : Status) (v : Word) : (complete s st v).ring = s.ring := rfl
@[simp] theorem complete_tx (s : State) (st : Status) (v : Word) : (complete s st v).tx = s.tx := rfl
@[simp] theorem complete_ch (s : State) (st : Status) (v : Word) : (complete s st v).ch = s.ch := rfl
@[simp] theorem complete_cop (s : State) (st : Status) (v : Word) : (complete s st v).cop = .idle := rfl
@[simp] theorem complete_res (s : State) (st : Status) (v : Word) : (complete s st v).res = resultWord st v := rfl
@[simp] theorem complete_out (s : State) (st : Status) (v : Word) : (complete s st v).out = s.out := rfl
@[simp] theorem complete_txd (s : State) (st : Status) (v : Word) : (complete s st v).txd = s.txd := rfl
@[simp] theorem complete_txmem (s : State) (st : Status) (v : Word) : (complete s st v).txmem = s.txmem := rfl
@[simp] theorem complete_schedule (s : State) (st : Status) (v : Word) : (complete s st v).schedule = s.schedule := rfl
@[simp] theorem complete_answers (s : State) (st : Status) (v : Word) : (complete s st v).answers = s.answers := rfl
@[simp] theorem complete_draws (s : State) (st : Status) (v : Word) : (complete s st v).draws = s.draws := rfl

@[simp] theorem gotoLabel_cfg (s : State) (c : Cop) : (gotoLabel s c).cfg = s.cfg := rfl
@[simp] theorem gotoLabel_ring (s : State) (c : Cop) : (gotoLabel s c).ring = s.ring := rfl
@[simp] theorem gotoLabel_tx (s : State) (c : Cop) : (gotoLabel s c).tx = s.tx := rfl
@[simp] theorem gotoLabel_ch (s : State) (c : Cop) : (gotoLabel s c).ch = s.ch := rfl
@[simp] theorem gotoLabel_cop (s : State) (c : Cop) : (gotoLabel s c).cop = c := rfl
@[simp] theorem gotoLabel_res (s : State) (c : Cop) : (gotoLabel s c).res = s.res := rfl
@[simp] theorem gotoLabel_out (s : State) (c : Cop) : (gotoLabel s c).out = s.out := rfl
@[simp] theorem gotoLabel_txd (s : State) (c : Cop) : (gotoLabel s c).txd = s.txd := rfl
@[simp] theorem gotoLabel_txmem (s : State) (c : Cop) : (gotoLabel s c).txmem = s.txmem := rfl
@[simp] theorem gotoLabel_schedule (s : State) (c : Cop) : (gotoLabel s c).schedule = s.schedule := rfl
@[simp] theorem gotoLabel_answers (s : State) (c : Cop) : (gotoLabel s c).answers = s.answers := rfl
@[simp] theorem gotoLabel_draws (s : State) (c : Cop) : (gotoLabel s c).draws = s.draws := rfl

@[simp] theorem outByte_cfg (s : State) (b : Byte) : (outByte s b).cfg = s.cfg := rfl
@[simp] theorem outByte_ring (s : State) (b : Byte) : (outByte s b).ring = s.ring := rfl
@[simp] theorem outByte_tx (s : State) (b : Byte) : (outByte s b).tx = s.tx := rfl
@[simp] theorem outByte_ch (s : State) (b : Byte) : (outByte s b).ch = s.ch := rfl
@[simp] theorem outByte_cop (s : State) (b : Byte) : (outByte s b).cop = s.cop := rfl
@[simp] theorem outByte_res (s : State) (b : Byte) : (outByte s b).res = s.res := rfl
@[simp] theorem outByte_out (s : State) (b : Byte) : (outByte s b).out = s.out ++ [b] := rfl
@[simp] theorem outByte_txd (s : State) (b : Byte) : (outByte s b).txd = s.txd := rfl
@[simp] theorem outByte_txmem (s : State) (b : Byte) : (outByte s b).txmem = s.txmem := rfl
@[simp] theorem outByte_schedule (s : State) (b : Byte) : (outByte s b).schedule = s.schedule := rfl
@[simp] theorem outByte_answers (s : State) (b : Byte) : (outByte s b).answers = s.answers := rfl
@[simp] theorem outByte_draws (s : State) (b : Byte) : (outByte s b).draws = s.draws := rfl

@[simp] theorem txPush_cfg (s : State) (bs : List Byte) : (txPush s bs).cfg = s.cfg := rfl
@[simp] theorem txPush_ring (s : State) (bs : List Byte) : (txPush s bs).ring = s.ring := rfl
@[simp] theorem txPush_tx (s : State) (bs : List Byte) : (txPush s bs).tx = s.tx := rfl
@[simp] theorem txPush_ch (s : State) (bs : List Byte) : (txPush s bs).ch = s.ch := rfl
@[simp] theorem txPush_cop (s : State) (bs : List Byte) : (txPush s bs).cop = s.cop := rfl
@[simp] theorem txPush_res (s : State) (bs : List Byte) : (txPush s bs).res = s.res := rfl
@[simp] theorem txPush_out (s : State) (bs : List Byte) : (txPush s bs).out = s.out := rfl
@[simp] theorem txPush_txd (s : State) (bs : List Byte) : (txPush s bs).txd = s.txd ++ bs := rfl
@[simp] theorem txPush_txmem (s : State) (bs : List Byte) : (txPush s bs).txmem = s.txmem := rfl
@[simp] theorem txPush_schedule (s : State) (bs : List Byte) : (txPush s bs).schedule = s.schedule := rfl
@[simp] theorem txPush_answers (s : State) (bs : List Byte) : (txPush s bs).answers = s.answers := rfl
@[simp] theorem txPush_draws (s : State) (bs : List Byte) : (txPush s bs).draws = s.draws := rfl

@[simp] theorem envWrite_cfg (s : State) (a : Word) (b : Byte) : (envWrite s a b).cfg = s.cfg := rfl
@[simp] theorem envWrite_ring (s : State) (a : Word) (b : Byte) : (envWrite s a b).ring = s.ring := rfl
@[simp] theorem envWrite_tx (s : State) (a : Word) (b : Byte) : (envWrite s a b).tx = s.tx := rfl
@[simp] theorem envWrite_ch (s : State) (a : Word) (b : Byte) : (envWrite s a b).ch = s.ch := rfl
@[simp] theorem envWrite_cop (s : State) (a : Word) (b : Byte) : (envWrite s a b).cop = s.cop := rfl
@[simp] theorem envWrite_res (s : State) (a : Word) (b : Byte) : (envWrite s a b).res = s.res := rfl
@[simp] theorem envWrite_out (s : State) (a : Word) (b : Byte) : (envWrite s a b).out = s.out := rfl
@[simp] theorem envWrite_txd (s : State) (a : Word) (b : Byte) : (envWrite s a b).txd = s.txd := rfl
@[simp] theorem envWrite_schedule (s : State) (a : Word) (b : Byte) : (envWrite s a b).schedule = s.schedule := rfl
@[simp] theorem envWrite_answers (s : State) (a : Word) (b : Byte) : (envWrite s a b).answers = s.answers := rfl
@[simp] theorem envWrite_draws (s : State) (a : Word) (b : Byte) : (envWrite s a b).draws = s.draws := rfl

@[simp] theorem stopLine_cfg (s : State) (st : Status) (c : Word) : (stopLine s st c).cfg = s.cfg := rfl
@[simp] theorem stopLine_ring (s : State) (st : Status) (c : Word) : (stopLine s st c).ring = s.ring := rfl
@[simp] theorem stopLine_tx (s : State) (st : Status) (c : Word) : (stopLine s st c).tx = s.tx := rfl
@[simp] theorem stopLine_ch (s : State) (st : Status) (c : Word) : (stopLine s st c).ch = s.ch := rfl
@[simp] theorem stopLine_cop (s : State) (st : Status) (c : Word) : (stopLine s st c).cop = .idle := rfl
@[simp] theorem stopLine_res (s : State) (st : Status) (c : Word) : (stopLine s st c).res = resultWord st c := rfl
@[simp] theorem stopLine_out (s : State) (st : Status) (c : Word) : (stopLine s st c).out = s.out ++ [Config.terminator] := rfl
@[simp] theorem stopLine_txd (s : State) (st : Status) (c : Word) : (stopLine s st c).txd = s.txd := rfl
@[simp] theorem stopLine_txmem (s : State) (st : Status) (c : Word) : (stopLine s st c).txmem = s.txmem := rfl
@[simp] theorem stopLine_schedule (s : State) (st : Status) (c : Word) : (stopLine s st c).schedule = s.schedule := rfl
@[simp] theorem stopLine_answers (s : State) (st : Status) (c : Word) : (stopLine s st c).answers = s.answers := rfl
@[simp] theorem stopLine_draws (s : State) (st : Status) (c : Word) : (stopLine s st c).draws = s.draws := rfl

@[simp] theorem idleWait_eq (s : State) : idleWait s = s := rfl

@[simp] theorem Ring.setOvf_storage (r : Ring) : (r.setOvf).storage = r.storage := rfl
@[simp] theorem Ring.setOvf_rd (r : Ring) : (r.setOvf).rd = r.rd := rfl
@[simp] theorem Ring.setOvf_wr (r : Ring) : (r.setOvf).wr = r.wr := rfl
@[simp] theorem Ring.setOvf_ovf (r : Ring) : (r.setOvf).ovf = true := rfl

@[simp] theorem Ring.cleared_storage (r : Ring) : (r.cleared).storage = r.storage := rfl
@[simp] theorem Ring.cleared_rd (r : Ring) : (r.cleared).rd = 0#16 := rfl
@[simp] theorem Ring.cleared_wr (r : Ring) : (r.cleared).wr = 0#16 := rfl
@[simp] theorem Ring.cleared_ovf (r : Ring) : (r.cleared).ovf = false := rfl

@[simp] theorem Tx.finish_base (t : Tx) : (t.finish).base = t.base := rfl
@[simp] theorem Tx.finish_len (t : Tx) : (t.finish).len = t.len := rfl
@[simp] theorem Tx.finish_sent (t : Tx) : (t.finish).sent = t.sent := rfl
@[simp] theorem Tx.finish_fin (t : Tx) : (t.finish).fin = true := rfl

@[simp] theorem Tx.arm_base (a n : Word) : (Tx.arm a n).base = a := rfl
@[simp] theorem Tx.arm_len (a n : Word) : (Tx.arm a n).len = n := rfl
@[simp] theorem Tx.arm_sent (a n : Word) : (Tx.arm a n).sent = 1#16 := rfl
@[simp] theorem Tx.arm_fin (a n : Word) : (Tx.arm a n).fin = false := rfl

@[simp] theorem Tx.advance_base (t : Tx) (n : Nat) : (t.advance n).base = t.base := rfl
@[simp] theorem Tx.advance_len (t : Tx) (n : Nat) : (t.advance n).len = t.len := rfl
@[simp] theorem Tx.advance_sent (t : Tx) (n : Nat) : (t.advance n).sent = BitVec.ofNat 16 (t.sent.toNat + n) := rfl
@[simp] theorem Tx.advance_fin (t : Tx) (n : Nat) : (t.advance n).fin = (t.fin || BitVec.ofNat 16 (t.sent.toNat + n) == t.len) := rfl

@[simp] theorem construct_cfg (p : Params) : (State.construct p).cfg = p := rfl
@[simp] theorem construct_ring (p : Params) : (State.construct p).ring = { storage := [], rd := 0#16, wr := 0#16, ovf := false } := rfl
@[simp] theorem construct_tx (p : Params) : (State.construct p).tx = { base := Config.txBaseReset, len := 0#16, sent := 0#16, fin := true } := rfl
@[simp] theorem construct_ch (p : Params) : (State.construct p).ch = { mode := .blocking, delim := 0x0A#8 } := rfl
@[simp] theorem construct_cop (p : Params) : (State.construct p).cop = .idle := rfl
@[simp] theorem construct_res (p : Params) : (State.construct p).res = Config.resReset := rfl
@[simp] theorem construct_out (p : Params) : (State.construct p).out = [] := rfl
@[simp] theorem construct_txd (p : Params) : (State.construct p).txd = [] := rfl
@[simp] theorem construct_txmem (p : Params) : (State.construct p).txmem = [] := rfl
@[simp] theorem construct_schedule (p : Params) : (State.construct p).schedule = [] := rfl
@[simp] theorem construct_answers (p : Params) : (State.construct p).answers = [] := rfl
@[simp] theorem construct_draws (p : Params) : (State.construct p).draws = 0 := rfl

end Sys2Proof.Machine
end

