-- ==== Sys2Proof/Laws/Ops.lean ====
section
/-! SUPPORT. For each shared operation, once: what it can answer. Proofs about the meanings cite these instead of
unfolding the operation. -/

namespace Sys2Proof.Machine

/-! ## Results -/

theorem onOk_next {α : Type} {x : Except Fault α} {k : α → Result} {t : State} :
    onOk x k = .next t ↔ ∃ a, x = .ok a ∧ k a = .next t := by
  cases x <;> simp [onOk]

@[simp] theorem onOk_ok {α : Type} (a : α) (k : α → Result) : onOk (.ok a) k = k a := rfl

theorem whenFree_next {s t : State} {body : Result} :
    whenFree s body = .next t ↔ s.cop = .idle ∧ body = .next t := by
  unfold whenFree
  split <;> simp_all

theorem whenFree_idle {s : State} (h : s.cop = .idle) (body : Result) : whenFree s body = body := by
  simp [whenFree, h]

theorem whenFree_busy {s : State} (h : s.cop ≠ .idle) (body : Result) : whenFree s body = .refused .portCBusy := by
  unfold whenFree
  split
  · exact absurd ‹_› h
  · rfl

theorem ringEmpty_iff_eq {s : State} : s.ringEmpty = true ↔ s.ring.rd = s.ring.wr := by
  simp [State.ringEmpty]

/-! ## The ring's storage -/

theorem ringRead_ok {s : State} {i : Nat} {b : Byte} :
    ringRead s i = .ok b ↔ i < s.cfg.n ∧ s.ring.storage.get? i = some b := by
  unfold ringRead
  split
  · split <;> simp_all
  · simp_all

theorem ringWrite_ok {s t : State} {i : Nat} {b : Byte} :
    ringWrite s i b = .ok t ↔
      i < s.cfg.n ∧ t = { s with ring := { s.ring with storage := s.ring.storage.set i b } } := by
  unfold ringWrite
  split
  · simp [*, eq_comm]
  · simp [*]

/-- `DrainOne()` answers the byte at `ring.rd`, appended to `OUT`, with `ring.rd` advanced, and changes nothing else
(R132). -/
theorem drainOne_ok {s t : State} {b : Byte} :
    drainOne s = .ok (b, t) ↔
      (s.ring.rd.toNat < s.cfg.n ∧ s.ring.storage.get? s.ring.rd.toNat = some b) ∧
      t = { s with out := s.out ++ [b], ring := { s.ring with rd := nextIndex s.cfg.n s.ring.rd } } := by
  unfold drainOne
  split
  · rename_i c h
    rw [ringRead_ok] at h
    constructor
    · intro ht
      injection ht with ht
      injection ht with hb ht
      subst hb
      exact ⟨h, ht.symm⟩
    · rintro ⟨⟨_, hb⟩, rfl⟩
      have : c = b := by rw [h.2] at hb; injection hb
      subst this
      rfl
  · rename_i h
    constructor
    · intro ht; cases ht
    · rintro ⟨hb, rfl⟩
      rw [← ringRead_ok] at hb
      rw [hb] at h
      cases h

/-! ## `TXMEM` -/

theorem memRead_word (s : State) (a : Word) : memRead s a.toNat = .ok (txByte s.txmem a.toNat) :=
  if_pos a.isLt

/-- A run of bytes inside `TXMEM` is read in ascending order (R62, R172). -/
theorem memReadRun_ok (s : State) {a n : Nat} (h : a + n ≤ 65536) :
    memReadRun s a n = .ok ((List.range n).map fun i => txByte s.txmem (a + i)) := by
  induction n generalizing a with
  | zero => rfl
  | succ n ih =>
    have hm : memRead s a = .ok (txByte s.txmem a) := if_pos (by unfold Config.txmemSize; omega)
    simp only [memReadRun, hm, ih (show a + 1 + n ≤ 65536 by omega), List.range_succ_eq_map, List.map_cons,
      List.map_map, Nat.add_zero]
    exact congrArg (fun l => Except.ok (_ :: l))
      (List.map_congr_left fun i _ => by simp [Nat.add_comm, Nat.add_left_comm])

/-- What is read depends on `TXMEM` alone. -/
theorem memReadRun_congr {s t : State} (h : t.txmem = s.txmem) (a n : Nat) :
    memReadRun t a n = memReadRun s a n := by
  induction n generalizing a with
  | zero => rfl
  | succ n ih => simp only [memReadRun, ih, memRead, h]

/-! ## The timeout predicate and the wait iteration (R101, R133) -/

theorem asked_iff {s t : State} {b : Bool} : Asked s b t ↔ timeoutCall s = (b, t) := by
  unfold Asked timeoutCall
  cases hh : s.cfg.hasTimeout with
  | false => simp [eq_comm]
  | true =>
    cases ha : s.answers with
    | nil => simp [eq_comm]
    | cons c rest =>
      simp only [Bool.true_eq_false, false_and, false_or, if_true, List.cons.injEq, reduceCtorEq, or_false,
        true_and, and_false, Prod.mk.injEq]
      constructor
      · rintro ⟨r, ⟨rfl, rfl⟩, rfl⟩
        exact ⟨rfl, rfl⟩
      · rintro ⟨rfl, rfl⟩
        exact ⟨rest, ⟨rfl, rfl⟩, rfl⟩

theorem asked_total (s : State) : ∃ b t, Asked s b t := ⟨_, _, asked_iff.2 rfl⟩

/-- Asking the predicate changes nothing but the environment's answers. -/
theorem asked_frame {s t : State} {b : Bool} (h : Asked s b t) :
    t = { s with answers := t.answers, draws := t.draws } := by
  rcases h with ⟨_, _, rfl⟩ | ⟨_, rest, _, rfl⟩ | ⟨_, _, _, rfl⟩ <;> rfl

/-- A wait iteration answers with the failure, or with the state after one answer (R133). -/
theorem waitIteration_next {s t : State} {k : State → State} :
    waitIteration s k = .next t ↔ (∃ s', Asked s true s' ∧ t = k s') ∨ Asked s false t := by
  simp only [asked_iff]
  unfold waitIteration
  rcases timeoutCall s with ⟨b, u⟩
  cases b <;> simp [eq_comm]

theorem waitIteration_fired {s s' : State} (h : Asked s true s') (k : State → State) :
    waitIteration s k = .next (k s') := by
  rw [waitIteration_next]
  exact .inl ⟨s', h, rfl⟩

theorem waitIteration_again {s s' : State} (h : Asked s false s') (k : State → State) :
    waitIteration s k = .next s' := by
  rw [waitIteration_next]
  exact .inr h

theorem waitIteration_cases (s : State) (k : State → State) : ∃ t, waitIteration s k = .next t := by
  unfold waitIteration
  split <;> exact ⟨_, rfl⟩

end Sys2Proof.Machine
end

