-- ==== Sys2Proof/Laws/Contents.lean ====
section
/-! SUPPORT. The stored bytes of the ring as a list (10_state R25): what an accepted `PUSH`, a rejected one, a
drained byte and `CLEAR` do to it, and that each keeps the ring invariant. -/

namespace Sys2Proof.Machine

/-! ## What they depend on -/

theorem count_congr {s t : State} (hc : t.cfg = s.cfg) (hr : t.ring = s.ring) : t.count = s.count := by
  simp only [State.count, hc, hr]

theorem slotAt_congr {s t : State} (hc : t.cfg = s.cfg) (hr : t.ring.rd = s.ring.rd) : t.slotAt = s.slotAt := by
  funext k
  simp only [State.slotAt, hc, hr]

theorem slotByte_congr {s t : State} (hc : t.cfg = s.cfg) (hr : t.ring = s.ring) : t.slotByte = s.slotByte := by
  funext k
  simp only [State.slotByte, State.slotAt, hc, hr]

theorem contents_congr {s t : State} (hc : t.cfg = s.cfg) (hr : t.ring = s.ring) : t.contents = s.contents := by
  simp only [State.contents, count_congr hc hr, slotByte_congr hc hr]

theorem ringInv_congr {s t : State} (hc : t.cfg = s.cfg) (hr : t.ring = s.ring) (h : RingInv s) : RingInv t where
  rd_lt := by rw [hc, hr]; exact h.rd_lt
  wr_lt := by rw [hc, hr]; exact h.wr_lt
  storage_wf := by rw [hc, hr]; exact h.storage_wf
  stored_written := by rw [count_congr hc hr, slotByte_congr hc hr]; exact h.stored_written

/-! ## The list -/

theorem filterMap_range_getElem? {f : Nat → Option Byte} {c : Nat} (h : ∀ k < c, (f k).isSome = true) (k : Nat) :
    ((List.range c).filterMap f)[k]? = if k < c then f k else none := by
  have hlen : ∀ c, (∀ k < c, (f k).isSome = true) → ((List.range c).filterMap f).length = c := by
    intro c h
    induction c with
    | zero => rfl
    | succ c ih =>
      obtain ⟨b, hb⟩ := Option.isSome_iff_exists.1 (h c (by omega))
      simp [List.range_succ, hb, ih fun k hk => h k (by omega)]
  induction c with
  | zero => simp
  | succ c ih =>
    obtain ⟨b, hb⟩ := Option.isSome_iff_exists.1 (h c (by omega))
    have hc := hlen c fun k hk => h k (by omega)
    rw [List.range_succ, List.filterMap_append, List.getElem?_append, hc, ih fun k hk => h k (by omega)]
    split
    · rw [if_pos (by omega)]
    · split
      · have : k = c := by omega
        subst this
        simp [hb]
      · rw [List.getElem?_eq_none]
        simp [hb]
        omega

theorem contents_getElem? {s : State} (hr : RingInv s) (k : Nat) :
    s.contents[k]? = if k < s.count then s.slotByte k else none :=
  filterMap_range_getElem? hr.stored_written k

theorem contents_length {s : State} (hr : RingInv s) : s.contents.length = s.count := by
  have h := contents_getElem? hr s.count
  have h' : ∀ k, k < s.count → k < s.contents.length := by
    intro k hk
    by_contra hn
    have h1 := contents_getElem? hr k
    rw [if_pos hk, List.getElem?_eq_none (by omega)] at h1
    have := hr.stored_written k hk
    rw [← h1] at this
    exact absurd this (by simp)
  rw [if_neg (by omega), List.getElem?_eq_none_iff] at h
  by_contra hn
  have := h' s.contents.length (by omega)
  omega

/-- Two states whose stored bytes agree slot by slot hold the same list. -/
theorem contents_ext {s : State} (hr : RingInv s) {l : List Byte} (hl : l.length = s.count)
    (h : ∀ k < s.count, s.slotByte k = l[k]?) : s.contents = l := by
  apply List.ext_getElem?
  intro k
  rw [contents_getElem? hr]
  split
  · exact h k ‹_›
  · rw [List.getElem?_eq_none (by omega)]

theorem contents_eq_nil {s : State} (hr : RingInv s) : s.contents = [] ↔ s.count = 0 := by
  rw [← contents_length hr, List.length_eq_zero_iff]

/-! ## An accepted `PUSH` -/

section
variable {s t : State} {b : Byte} (hp : s.cfg.wf) (hr : RingInv s)
include hp hr

/-- The candidate index equals `ring.rd` exactly when the ring is full. -/
theorem candidate_eq_iff : nextIndex s.cfg.n s.ring.wr = s.ring.rd ↔ s.count = s.cfg.n - 1 := by
  rw [← ringFull_iff hp hr]
  simp [State.ringFull]

theorem count_accept (hf : s.count ≠ s.cfg.n - 1) (hc : t.cfg = s.cfg) (hd : t.ring.rd = s.ring.rd)
    (hw : t.ring.wr = nextIndex s.cfg.n s.ring.wr) : t.count = s.count + 1 := by
  have h1 := hr.rd_lt
  have h2 := hr.wr_lt
  have h3 := nextIndex_toNat h2 hp.1.2
  have h4 := nextIndex_lt h2 hp.1.2
  have h5 := count_eq hr
  have h6 : t.count = _ := residue_eq (a := t.ring.wr.toNat) (b := t.ring.rd.toNat) (n := t.cfg.n)
    (by rw [hw, hc]; exact h4) (by rw [hd, hc]; exact h1)
  rw [hd, hw, hc] at h6
  have := hp.1.1
  split at h3 <;> split at h5 <;> split at h6 <;> omega

theorem ring_accept (hf : s.count ≠ s.cfg.n - 1) (hc : t.cfg = s.cfg) (hd : t.ring.rd = s.ring.rd)
    (hw : t.ring.wr = nextIndex s.cfg.n s.ring.wr)
    (hs : t.ring.storage = s.ring.storage.set s.ring.wr.toNat b) :
    RingInv t ∧ t.contents = s.contents ++ [b] := by
  have hcount := count_accept hp hr hf hc hd hw
  have hslot := slotAt_congr hc hd
  have hold : ∀ k < s.count, t.slotByte k = s.slotByte k := by
    intro k hk
    unfold State.slotByte
    rw [hslot, hs, Memory.get?_set_ne (slotAt_ne_wr hr hk)]
  have hnew : t.slotByte s.count = some b := by
    unfold State.slotByte
    rw [hslot, hs, slotAt_count hr, Memory.get?_set_same]
  have hi : RingInv t := by
    refine ⟨?_, ?_, ?_, ?_⟩
    · rw [hd, hc]; exact hr.rd_lt
    · rw [hw, hc]; exact nextIndex_lt hr.wr_lt hp.1.2
    · rw [hs, hc]; exact Memory.ringWf_set hr.storage_wf hr.wr_lt b
    · intro k hk
      rcases Nat.lt_or_ge k s.count with hlt | hge
      · rw [hold k hlt]; exact hr.stored_written k hlt
      · have : k = s.count := by omega
        rw [this, hnew]; rfl
  refine ⟨hi, contents_ext hi (by simp [contents_length hr, hcount]) ?_⟩
  intro k hk
  rw [List.getElem?_append, contents_length hr, contents_getElem? hr]
  split
  · exact hold k ‹_›
  · have : k = s.count := by omega
    rw [this, hnew]; simp

/-! ## A rejected `PUSH` -/

omit hp in
theorem ring_reject (hc : t.cfg = s.cfg) (hd : t.ring.rd = s.ring.rd) (hw : t.ring.wr = s.ring.wr)
    (hs : t.ring.storage = s.ring.storage.set s.ring.wr.toNat b) :
    RingInv t ∧ t.contents = s.contents ∧ t.count = s.count := by
  have hcount : t.count = s.count := by simp only [State.count, hc, hd, hw]
  have hslot := slotAt_congr hc hd
  have hold : ∀ k < s.count, t.slotByte k = s.slotByte k := by
    intro k hk
    unfold State.slotByte
    rw [hslot, hs, Memory.get?_set_ne (slotAt_ne_wr hr hk)]
  have hi : RingInv t := by
    refine ⟨?_, ?_, ?_, ?_⟩
    · rw [hd, hc]; exact hr.rd_lt
    · rw [hw, hc]; exact hr.wr_lt
    · rw [hs, hc]; exact Memory.ringWf_set hr.storage_wf hr.wr_lt b
    · intro k hk
      rw [hold k (by omega)]; exact hr.stored_written k (by omega)
  refine ⟨hi, contents_ext hi (by rw [contents_length hr, hcount]) ?_, hcount⟩
  intro k hk
  rw [hold k (by omega), contents_getElem? hr, if_pos (by omega)]

/-! ## A drained byte -/

theorem count_drain (h0 : s.count ≠ 0) (hc : t.cfg = s.cfg) (hw : t.ring.wr = s.ring.wr)
    (hd : t.ring.rd = nextIndex s.cfg.n s.ring.rd) : t.count + 1 = s.count := by
  have h1 := hr.rd_lt
  have h2 := hr.wr_lt
  have h3 := nextIndex_toNat h1 hp.1.2
  have h4 := nextIndex_lt h1 hp.1.2
  have h5 := count_eq hr
  have h6 : t.count = _ := residue_eq (a := t.ring.wr.toNat) (b := t.ring.rd.toNat) (n := t.cfg.n)
    (by rw [hw, hc]; exact h2) (by rw [hd, hc]; exact h4)
  rw [hd, hw, hc] at h6
  have := hp.1.1
  split at h3 <;> split at h5 <;> split at h6 <;> omega

theorem slotAt_drain (hc : t.cfg = s.cfg) (hd : t.ring.rd = nextIndex s.cfg.n s.ring.rd) (k : Nat) :
    t.slotAt k = s.slotAt (k + 1) := by
  have h1 := hr.rd_lt
  have h2 := nextIndex_toNat h1 hp.1.2
  unfold State.slotAt
  rw [hd, hc, h2]
  split
  · rw [show s.ring.rd.toNat + (k + 1) = k + s.cfg.n by omega, Nat.add_mod_right]
    simp
  · rw [show s.ring.rd.toNat + 1 + k = s.ring.rd.toNat + (k + 1) by omega]

theorem ring_drain (h0 : s.count ≠ 0) (hc : t.cfg = s.cfg) (hw : t.ring.wr = s.ring.wr)
    (hd : t.ring.rd = nextIndex s.cfg.n s.ring.rd) (hs : t.ring.storage = s.ring.storage)
    (hb : s.ring.storage.get? s.ring.rd.toNat = some b) :
    RingInv t ∧ s.contents = b :: t.contents := by
  have hcount := count_drain hp hr h0 hc hw hd
  have hbyte : ∀ k, t.slotByte k = s.slotByte (k + 1) := by
    intro k
    unfold State.slotByte
    rw [slotAt_drain hp hr hc hd, hs]
  have hi : RingInv t := by
    refine ⟨?_, ?_, ?_, ?_⟩
    · rw [hd, hc]; exact nextIndex_lt hr.rd_lt hp.1.2
    · rw [hw, hc]; exact hr.wr_lt
    · rw [hs, hc]; exact hr.storage_wf
    · intro k hk
      rw [hbyte]; exact hr.stored_written (k + 1) (by omega)
  refine ⟨hi, contents_ext hr (by simp [contents_length hi, hcount]) ?_⟩
  intro k hk
  cases k with
  | zero =>
    unfold State.slotByte
    rw [slotAt_zero hr, hb]; rfl
  | succ k =>
    rw [List.getElem?_cons_succ, contents_getElem? hi, if_pos (by omega), hbyte]

omit hp in
/-- On a non-empty ring the byte at `ring.rd` has been written. -/
theorem oldest_written (h0 : s.count ≠ 0) : ∃ b, s.ring.storage.get? s.ring.rd.toNat = some b := by
  have := hr.stored_written 0 (by omega)
  unfold State.slotByte at this
  rw [slotAt_zero hr] at this
  exact Option.isSome_iff_exists.1 this

omit hp in
/-- `DrainOne()` succeeds on a non-empty ring (R132). -/
theorem drainOne_stored (h0 : s.count ≠ 0) :
    ∃ b, s.ring.storage.get? s.ring.rd.toNat = some b ∧ drainOne s = .ok (b,
      { s with out := s.out ++ [b], ring := { s.ring with rd := nextIndex s.cfg.n s.ring.rd } }) := by
  obtain ⟨b, hb⟩ := oldest_written hr h0
  exact ⟨b, hb, drainOne_ok.2 ⟨⟨hr.rd_lt, hb⟩, rfl⟩⟩

end

/-! ## `CLEAR` -/

theorem ringInv_cleared {s t : State} (hp : s.cfg.wf) (hr : RingInv s) (hc : t.cfg = s.cfg)
    (ht : t.ring = s.ring.cleared) : RingInv t ∧ t.count = 0 := by
  have h0 : t.count = 0 := by
    unfold State.count
    rw [ht, hc, residue_eq (by simp; have := hp.1.1; omega) (by simp; have := hp.1.1; omega)]
    simp
  refine ⟨⟨?_, ?_, ?_, ?_⟩, h0⟩
  · rw [ht, hc]; simp; have := hp.1.1; omega
  · rw [ht, hc]; simp; have := hp.1.1; omega
  · rw [ht, hc]; exact hr.storage_wf
  · intro k hk; omega

/-! ## The scan of `PEEKLN` (R138) -/

/-- The scan over stored bytes answers the distance to and including the nearest delimiter. -/
theorem scanFrom_found {s : State} (hr : RingInv s) {e : Nat} (he : s.slotByte e = some s.ch.delim) :
    ∀ (k d : Nat), d ≤ e → e < d + k → d + k ≤ s.count →
      (∀ j, d ≤ j → j < e → s.slotByte j ≠ some s.ch.delim) → scanFrom s d k = .ok (e + 1) := by
  intro k
  induction k with
  | zero => intro d h1 h2; omega
  | succ k ih =>
    intro d h1 h2 h3 hno
    obtain ⟨b, hb, hread⟩ := ringRead_stored hr (show d < s.count by omega)
    rw [scanFrom, hread]
    dsimp only
    by_cases hd : d = e
    · subst hd
      rw [hb] at he
      injection he with he
      rw [if_pos he]
    · have hne : b ≠ s.ch.delim := fun h => hno d (Nat.le_refl d) (by omega) (by rw [hb, h])
      rw [if_neg hne]
      exact ih (d + 1) (by omega) (by omega) (by omega) fun j h4 h5 => hno j (by omega) h5

/-- The scan over stored bytes with no delimiter answers 0. -/
theorem scanFrom_none {s : State} (hr : RingInv s) :
    ∀ (k d : Nat), d + k ≤ s.count → (∀ j, d ≤ j → j < d + k → s.slotByte j ≠ some s.ch.delim) →
      scanFrom s d k = .ok 0 := by
  intro k
  induction k with
  | zero => intros; rfl
  | succ k ih =>
    intro d h3 hno
    obtain ⟨b, hb, hread⟩ := ringRead_stored hr (show d < s.count by omega)
    have hne : b ≠ s.ch.delim := fun h => hno d (Nat.le_refl d) (by omega) (by rw [hb, h])
    rw [scanFrom, hread]
    dsimp only
    rw [if_neg hne]
    exact ih (d + 1) (by omega) fun j h4 h5 => hno j (by omega) (by omega)

/-- The scan over stored bytes never faults (R38). -/
theorem scanFrom_cases {s : State} (hr : RingInv s) : ∀ (k d : Nat), d + k ≤ s.count → ∃ v, scanFrom s d k = .ok v := by
  intro k
  induction k with
  | zero => intros; exact ⟨0, rfl⟩
  | succ k ih =>
    intro d h3
    obtain ⟨b, hb, hread⟩ := ringRead_stored hr (show d < s.count by omega)
    rw [scanFrom, hread]
    dsimp only
    split
    · exact ⟨_, rfl⟩
    · exact ih (d + 1) (by omega)

end Sys2Proof.Machine
end

