-- ==== Sys2Proof/Laws/Decode.lean ====
section
/-! SUPPORT. The fields of a command word and the rows of the opcode map (30_encoding R90 to R93). -/

namespace Sys2Proof

/-- A command word is its three fields (R90). -/
theorem word_split (w : Cmd) : (opField w ++ (aField w ++ bField w) : BitVec 40) = w := by
  unfold opField aField bField
  rw [BitVec.extractLsb'_append_extractLsb'_eq_extractLsb' (by decide),
    BitVec.extractLsb'_append_extractLsb'_eq_extractLsb' (by decide)]
  exact BitVec.extractLsb'_eq_self

theorem opField_append (o : BitVec 8) (a b : Word) : opField (o ++ (a ++ b) : BitVec 40) = o := by
  unfold opField
  exact BitVec.extractLsb'_append_eq_left

theorem aField_append (o : BitVec 8) (a b : Word) : aField (o ++ (a ++ b) : BitVec 40) = a := by
  unfold aField
  rw [BitVec.extractLsb'_append_eq_of_add_le (by decide), BitVec.extractLsb'_append_eq_left]

theorem bField_append (o : BitVec 8) (a b : Word) : bField (o ++ (a ++ b) : BitVec 40) = b := by
  unfold bField
  rw [BitVec.extractLsb'_append_eq_of_add_le (by decide), BitVec.extractLsb'_append_eq_right]

/-- `imm8` is the low half of `B` (R92). -/
theorem imm8Field_eq (w : Cmd) : imm8Field w = (bField w).setWidth 8 := by
  unfold imm8Field bField
  ext k hk
  simp only [BitVec.getElem_extractLsb', BitVec.getElem_setWidth, BitVec.getLsbD_extractLsb']
  simp [show k < 16 by omega]

/-- The mode bit is bit 0 of `B` (R92). -/
theorem modeField_eq (w : Cmd) :
    modeField w = if (bField w).setWidth 1 = 1#1 then .nonblocking else .blocking := by
  have h : w.extractLsb' 0 1 = (bField w).setWidth 1 := by
    unfold bField
    ext k hk
    simp only [BitVec.getElem_extractLsb', BitVec.getElem_setWidth, BitVec.getLsbD_extractLsb']
    simp [show k < 16 by omega]
  rw [modeField, h]

/-- Two words are equal when their fields are. -/
theorem append_eq_iff {o o' : BitVec 8} {a a' b b' : Word} :
    ((o ++ (a ++ b) : BitVec 40) = (o' ++ (a' ++ b') : BitVec 40)) ↔ o = o' ∧ a = a' ∧ b = b' := by
  constructor
  · intro h
    exact ⟨(opField_append o a b).symm.trans ((congrArg opField h).trans (opField_append o' a' b')),
      (aField_append o a b).symm.trans ((congrArg aField h).trans (aField_append o' a' b')),
      (bField_append o a b).symm.trans ((congrArg bField h).trans (bField_append o' a' b'))⟩
  · rintro ⟨rfl, rfl, rfl⟩
    rfl

/-- What `w & mask == match` says of the fields, for a mask that covers the opcode (R91, R93). -/
theorem select_iff (w : Cmd) (o : BitVec 8) (ma mb : Word) :
    w &&& (0xFF#8 ++ (ma ++ mb) : BitVec 40) = (o ++ (0#16 ++ 0#16) : BitVec 40) ↔
      opField w = o ∧ aField w &&& ma = 0#16 ∧ bField w &&& mb = 0#16 := by
  conv => lhs; lhs; lhs; rw [← word_split w]
  rw [BitVec.and_append, BitVec.and_append, append_eq_iff,
    show (0xFF#8 : BitVec 8) = BitVec.allOnes 8 from rfl, BitVec.and_allOnes]

/-! ## The reserved bits of the fields (R91) -/

theorem and_ffff (a : Word) : a &&& 0xFFFF#16 = a := by
  rw [show (0xFFFF#16 : BitVec 16) = BitVec.allOnes 16 from rfl, BitVec.and_allOnes]

/-- The high half of `B` is 0 exactly when `B` is its low half. -/
theorem and_ff00 (b : Word) : b &&& 0xFF00#16 = 0#16 ↔ b = (b.setWidth 8).setWidth 16 := by
  simp only [BitVec.eq_of_getLsbD_eq_iff, BitVec.getLsbD_and, BitVec.getLsbD_setWidth]
  constructor
  · intro h k hk
    have := h k hk
    clear h
    interval_cases k <;> revert this <;> simp
  · intro h k hk
    have := h k hk
    clear h
    interval_cases k <;> revert this <;> simp

/-- All bits of `B` but bit 0 are 0 exactly when `B` is its bit 0. -/
theorem and_fffe (b : Word) : b &&& 0xFFFE#16 = 0#16 ↔ b = (b.setWidth 1).setWidth 16 := by
  simp only [BitVec.eq_of_getLsbD_eq_iff, BitVec.getLsbD_and, BitVec.getLsbD_setWidth]
  constructor
  · intro h k hk
    have := h k hk
    clear h
    interval_cases k <;> revert this <;> simp
  · intro h k hk
    have := h k hk
    clear h
    interval_cases k <;> revert this <;> simp

/-- The five formats as masks on the fields `A` and `B` (R91). -/
def Format.aMask : Format → Word
  | .AB => 0#16
  | .Z | .B8 | .B16 | .M1 => 0xFFFF#16

def Format.bMask : Format → Word
  | .Z => 0xFFFF#16
  | .B8 => 0xFF00#16
  | .M1 => 0xFFFE#16
  | .B16 | .AB => 0#16

/-- A row selects a word by its opcode and the reserved bits of its fields (R91, R93). -/
theorem row_select_iff (r : Row) (w : Cmd) : w &&& r.format.mask = r.matchWord ↔
    opField w = r.op ∧ aField w &&& r.format.aMask = 0#16 ∧ bField w &&& r.format.bMask = 0#16 := by
  have hm : r.format.mask = (0xFF#8 ++ (r.format.aMask ++ r.format.bMask) : BitVec 40) := by
    cases r.format <;> decide
  have ho : r.matchWord = (r.op ++ (0#16 ++ 0#16) : BitVec 40) := by
    unfold Row.matchWord
    rw [show (0#16 ++ 0#16 : BitVec 32) = 0#32 by decide]
  rw [hm, ho]
  exact select_iff w r.op _ _

/-- The opcodes of the map are distinct (R93). -/
theorem rows_pairwise : rows.Pairwise (fun r r' => r.op ≠ r'.op) := by
  unfold rows
  decide

/-- A word with a row's opcode is decoded by that row (R93). -/
theorem decode_row {r : Row} (hr : r ∈ rows) {w : Cmd} (hw : opField w = r.op) :
    decode w = if w &&& r.format.mask = r.matchWord then .ok (r.read w) else .error .reservedBits := by
  have h : rows.find? (fun r' => r'.op == opField w) = some r := by
    rw [hw]
    obtain ⟨l, l', hl⟩ := List.append_of_mem hr
    have hp := rows_pairwise
    rw [hl] at hp ⊢
    rw [List.find?_append]
    have : l.find? (fun r' => r'.op == r.op) = none := by
      rw [List.find?_eq_none]
      intro r' hr'
      have := (List.pairwise_append.1 hp).2.2 r' hr' r List.mem_cons_self
      simp [this]
    rw [this]
    simp
  rw [decode, h]

/-- A word with no row's opcode is rejected by name (R95). -/
theorem decode_unlisted {w : Cmd} (h : ∀ r ∈ rows, r.op ≠ opField w) : decode w = .error .reservedOpcode := by
  have : rows.find? (fun r' => r'.op == opField w) = none := by
    rw [List.find?_eq_none]
    intro r hr
    simp [h r hr]
  rw [decode, this]

/-- What decodes was read by a row whose opcode the word has and whose reserved bits it leaves 0. -/
theorem decode_ok {w : Cmd} {i : Instr} (h : decode w = .ok i) :
    ∃ r ∈ rows, opField w = r.op ∧ w &&& r.format.mask = r.matchWord ∧ r.read w = i := by
  unfold decode at h
  split at h
  · cases h
  · rename_i r hr
    split at h
    · rename_i hm
      injection h with h
      have ho := List.find?_some hr
      rw [beq_iff_eq] at ho
      exact ⟨r, List.mem_of_find?_eq_some hr, ho.symm, hm, h⟩
    · cases h

@[simp] theorem opField_encode (i : Instr) : opField (encode i) = i.opcode := opField_append _ _ _
@[simp] theorem aField_encode (i : Instr) : aField (encode i) = i.aWord := aField_append _ _ _
@[simp] theorem bField_encode (i : Instr) : bField (encode i) = i.bWord := bField_append _ _ _

end Sys2Proof
end

