-- ==== Sys2Proof/Laws/Meanings.lean ====
section
/-! SUPPORT. For each meaning, once: when it answers a next state, and which. Proofs about all operations cite these
instead of unfolding a meaning. A compound operation has one lemma for its labels and one for each label. -/

namespace Sys2Proof.Machine

theorem next_eq {s t : State} : (Host.Outcome.next s : Result) = .next t ↔ t = s := by
  rw [Host.Outcome.next.injEq, eq_comm]

variable {s t : State}

/-- Asking the predicate changes none of the spec's state. -/
theorem asked_fields {u : State} {b : Bool} (h : Asked s b u) :
    u.cfg = s.cfg ∧ u.ring = s.ring ∧ u.tx = s.tx ∧ u.ch = s.ch ∧ u.cop = s.cop ∧ u.res = s.res ∧ u.out = s.out ∧
    u.txd = s.txd ∧ u.txmem = s.txmem ∧ u.schedule = s.schedule := by
  rw [asked_frame h]
  simp

/-! ## Port P -/

theorem execPush_next {b : Byte} : execPush b s = .next t ↔ s.ring.wr.toNat < s.cfg.n ∧
    ((nextIndex s.cfg.n s.ring.wr = s.ring.rd ∧
        t = { s with ring := { s.ring with storage := s.ring.storage.set s.ring.wr.toNat b, ovf := true } }) ∨
      (nextIndex s.cfg.n s.ring.wr ≠ s.ring.rd ∧
        t = { s with ring := { s.ring with
          storage := s.ring.storage.set s.ring.wr.toNat b, wr := nextIndex s.cfg.n s.ring.wr } })) := by
  simp only [execPush, onOk_next, ringWrite_ok]
  constructor
  · rintro ⟨_, ⟨hw, rfl⟩, h⟩
    refine ⟨hw, ?_⟩
    split at h
    · injection h with h
      exact .inl ⟨‹_›, h.symm⟩
    · injection h with h
      exact .inr ⟨‹_›, h.symm⟩
  · rintro ⟨hw, ⟨h, rfl⟩ | ⟨h, rfl⟩⟩
    · exact ⟨_, ⟨hw, rfl⟩, if_pos h⟩
    · exact ⟨_, ⟨hw, rfl⟩, if_neg h⟩

theorem execTxev_next : execTxev s = .next t ↔ (s.tx.fin = true ∧ t = s) ∨
    (s.tx.fin = false ∧ ∃ bs, memReadRun s (s.txAddr s.tx.sent.toNat) s.burst = .ok bs ∧
      t = { s with txd := s.txd ++ bs, tx := s.tx.advance s.burst }) := by
  unfold execTxev
  cases s.tx.fin <;> simp [onOk_next, next_eq, txPush, -Host.Outcome.next.injEq]

/-! ## Single steps of port C -/

theorem execCount_next :
    execCount s = .next t ↔ s.cop = .idle ∧ t = complete s .ok (BitVec.ofNat 16 s.count) := by
  simp [execCount, whenFree_next, next_eq, -Host.Outcome.next.injEq]

theorem execIsovf_next :
    execIsovf s = .next t ↔ s.cop = .idle ∧ t = complete s .ok (flagWord s.ring.ovf) := by
  simp [execIsovf, whenFree_next, next_eq, -Host.Outcome.next.injEq]

theorem execPeekln_next : execPeekln s = .next t ↔ s.cop = .idle ∧
    ((s.ring.ovf = true ∧ t = complete s .overflow 0#16) ∨
      (s.ring.ovf = false ∧ ∃ d, scanFrom s 0 s.count = .ok d ∧ t = complete s .ok (BitVec.ofNat 16 d))) := by
  unfold execPeekln
  rw [whenFree_next]
  cases s.ring.ovf <;> simp [onOk_next, next_eq, -Host.Outcome.next.injEq]

theorem execClear_next : execClear s = .next t ↔
    s.cop = .idle ∧ t = complete { s with ring := s.ring.cleared } .ok 0#16 := by
  simp [execClear, whenFree_next, next_eq, -Host.Outcome.next.injEq]

theorem execIsfin_next :
    execIsfin s = .next t ↔ s.cop = .idle ∧ t = complete s .ok (flagWord s.tx.fin) := by
  simp [execIsfin, whenFree_next, next_eq, -Host.Outcome.next.injEq]

theorem execClrtx_next : execClrtx s = .next t ↔
    s.cop = .idle ∧ t = complete { s with tx := s.tx.finish } .ok 0#16 := by
  simp [execClrtx, whenFree_next, next_eq, -Host.Outcome.next.injEq]

theorem execSetmode_next {m : Mode} : execSetmode m s = .next t ↔
    s.cop = .idle ∧ t = complete { s with ch := { s.ch with mode := m } } .ok 0#16 := by
  simp [execSetmode, whenFree_next, next_eq, -Host.Outcome.next.injEq]

theorem execSetdelim_next {b : Byte} : execSetdelim b s = .next t ↔
    s.cop = .idle ∧ t = complete { s with ch := { s.ch with delim := b } } .ok 0#16 := by
  simp [execSetdelim, whenFree_next, next_eq, -Host.Outcome.next.injEq]

/-! ## `RDNB` -/

theorem execRdnb_next {max : Word} : execRdnb max s = .next t ↔
    (s.cop = .idle ∧ t = gotoLabel s (.rdnbS max)) ∨
    (s.cop = .rdnbS max ∧ rdnbStepS max s = .next t) ∨
    (∃ n cnt, s.cop = .rdnbD max n cnt ∧ rdnbStepD max n cnt s = .next t) := by
  unfold execRdnb
  split <;> rename_i h <;> try split
  all_goals simp_all [next_eq, -Host.Outcome.next.injEq]

theorem rdnbStepS_next {max : Word} : rdnbStepS max s = .next t ↔
    (BitVec.ofNat 16 (s.batch max) = 0#16 ∧ t = complete s .ok 0#16) ∨
    (BitVec.ofNat 16 (s.batch max) ≠ 0#16 ∧
      t = gotoLabel s (.rdnbD max (BitVec.ofNat 16 (s.batch max)) 0#16)) := by
  unfold rdnbStepS
  dsimp only
  split <;> simp_all [next_eq, -Host.Outcome.next.injEq]

theorem rdnbStepD_next {max n cnt : Word} : rdnbStepD max n cnt s = .next t ↔
    ∃ b u, drainOne s = .ok (b, u) ∧ ((bump cnt = n ∧ t = complete u .ok n) ∨
      (bump cnt ≠ n ∧ t = gotoLabel u (.rdnbD max n (bump cnt)))) := by
  simp only [rdnbStepD, onOk_next, Prod.exists]
  refine exists_congr fun b => exists_congr fun u => and_congr_right fun _ => ?_
  split <;> simp_all [next_eq, -Host.Outcome.next.injEq]

/-! ## `READ` -/

theorem execRead_next {max : Word} : execRead max s = .next t ↔
    (s.cop = .idle ∧ t = gotoLabel s (.readW max)) ∨
    (s.cop = .readW max ∧ readStepW max s = .next t) ∨
    (∃ cnt, s.cop = .readD max cnt ∧ readStepD max cnt s = .next t) := by
  unfold execRead
  split <;> rename_i h <;> try split
  all_goals simp_all [next_eq, -Host.Outcome.next.injEq]

theorem readStepW_next {max : Word} : readStepW max s = .next t ↔
    (s.ring.rd ≠ s.ring.wr ∧ t = gotoLabel s (.readD max 0#16)) ∨
    (s.ring.rd = s.ring.wr ∧ ((∃ u, Asked s true u ∧ t = complete u .timeout 0#16) ∨ Asked s false t)) := by
  unfold readStepW
  split
  · rename_i h
    rw [ringEmpty_iff_eq] at h
    rw [waitIteration_next]
    simp [h]
  · rename_i h
    rw [ringEmpty_iff_eq] at h
    simp [h, next_eq, -Host.Outcome.next.injEq]

theorem readStepD_next {max cnt : Word} : readStepD max cnt s = .next t ↔
    ((cnt = max ∨ s.ring.rd = s.ring.wr) ∧ t = complete s .ok cnt) ∨
    (cnt ≠ max ∧ s.ring.rd ≠ s.ring.wr ∧
      ∃ b u, drainOne s = .ok (b, u) ∧ t = gotoLabel u (.readD max (bump cnt))) := by
  unfold readStepD
  simp only [ringEmpty_iff_eq]
  split
  · rename_i h
    simp [h, next_eq, -Host.Outcome.next.injEq]
    tauto
  · rename_i h
    rw [not_or] at h
    simp [h, onOk_next, next_eq, -Host.Outcome.next.injEq]

/-! ## `READF` -/

theorem execReadf_next {max : Word} : execReadf max s = .next t ↔
    (s.cop = .idle ∧ t = gotoLabel s (.readfF max 0#16)) ∨
    (∃ total, s.cop = .readfF max total ∧ readfStepF max total s = .next t) ∨
    (∃ total cnt, s.cop = .readfW max total cnt ∧ readfStepW max total cnt s = .next t) ∨
    (∃ total cnt, s.cop = .readfD max total cnt ∧ readfStepD max total cnt s = .next t) := by
  unfold execReadf
  split <;> rename_i h <;> try split
  all_goals simp_all [next_eq, -Host.Outcome.next.injEq]

theorem readfStepF_next {max total : Word} : readfStepF max total s = .next t ↔
    (total = max ∧ t = complete s .ok total) ∨ (total ≠ max ∧ t = gotoLabel s (.readfW max total 0#16)) := by
  unfold readfStepF
  split <;> simp_all [next_eq, -Host.Outcome.next.injEq]

theorem readfStepW_next {max total cnt : Word} : readfStepW max total cnt s = .next t ↔
    (s.ring.rd ≠ s.ring.wr ∧ t = gotoLabel s (.readfD max total cnt)) ∨
    (s.ring.rd = s.ring.wr ∧ ((∃ u, Asked s true u ∧ t = complete u .timeout total) ∨ Asked s false t)) := by
  unfold readfStepW
  split
  · rename_i h
    rw [ringEmpty_iff_eq] at h
    rw [waitIteration_next]
    simp [h]
  · rename_i h
    rw [ringEmpty_iff_eq] at h
    simp [h, next_eq, -Host.Outcome.next.injEq]

theorem readfStepD_next {max total cnt : Word} : readfStepD max total cnt s = .next t ↔
    ((total.toNat + cnt.toNat = max.toNat ∨ s.ring.rd = s.ring.wr) ∧ t = gotoLabel s (.readfF max (total + cnt))) ∨
    (total.toNat + cnt.toNat ≠ max.toNat ∧ s.ring.rd ≠ s.ring.wr ∧
      ∃ b u, drainOne s = .ok (b, u) ∧ t = gotoLabel u (.readfD max total (bump cnt))) := by
  unfold readfStepD
  simp only [ringEmpty_iff_eq]
  split
  · rename_i h
    simp [h, next_eq, -Host.Outcome.next.injEq]
    tauto
  · rename_i h
    rw [not_or] at h
    simp [h, onOk_next, next_eq, -Host.Outcome.next.injEq]

/-! ## `RDLINE` -/

theorem execRdline_next {size : Word} : execRdline size s = .next t ↔
    (s.cop = .idle ∧ rdlineLegal size = true ∧ t = gotoLabel s (.rdlineL size 0#16)) ∨
    (s.cop = .idle ∧ rdlineLegal size = false ∧ t = complete s .illegal 0#16) ∨
    (∃ cnt, s.cop = .rdlineL size cnt ∧ rdlineStepL size cnt s = .next t) := by
  unfold execRdline
  split <;> rename_i h <;> try split
  all_goals simp_all [next_eq, -Host.Outcome.next.injEq]

theorem rdlineStepL_next {size cnt : Word} : rdlineStepL size cnt s = .next t ↔
    (cnt.toNat = size.toNat - 1 ∧ t = stopLine s .ok cnt) ∨
    (cnt.toNat ≠ size.toNat - 1 ∧ s.ring.ovf = true ∧ t = stopLine s .badline cnt) ∨
    (cnt.toNat ≠ size.toNat - 1 ∧ s.ring.ovf = false ∧ s.ring.rd = s.ring.wr ∧
      ((∃ u, Asked s true u ∧ t = stopLine u .timeout cnt) ∨ Asked s false t)) ∨
    (cnt.toNat ≠ size.toNat - 1 ∧ s.ring.ovf = false ∧ s.ring.rd ≠ s.ring.wr ∧
      ∃ b u, drainOne s = .ok (b, u) ∧ ((b = u.ch.delim ∧ t = stopLine u .ok (bump cnt)) ∨
        (b ≠ u.ch.delim ∧ t = gotoLabel u (.rdlineL size (bump cnt))))) := by
  unfold rdlineStepL
  split
  · simp_all [next_eq, -Host.Outcome.next.injEq]
  · split
    · simp_all [next_eq, -Host.Outcome.next.injEq]
    · split
      · rename_i h
        rw [ringEmpty_iff_eq] at h
        rw [waitIteration_next]
        simp_all
      · rename_i h
        rw [ringEmpty_iff_eq] at h
        simp only [onOk_next, Prod.exists]
        simp_all only [ne_eq, not_false_eq_true, true_and, false_and, false_or, Bool.not_eq_true, Bool.false_eq_true]
        refine exists_congr fun b => exists_congr fun u => and_congr_right fun _ => ?_
        split <;> simp_all [next_eq, -Host.Outcome.next.injEq]

/-! ## `START` -/

theorem execStart_next {a n : Word} : execStart a n s = .next t ↔
    (s.cop = .idle ∧ startLegal a n = true ∧ t = gotoLabel s (.startS0 a n)) ∨
    (s.cop = .idle ∧ startLegal a n = false ∧ t = complete s .illegal 0#16) ∨
    (s.cop = .startS0 a n ∧ startStepS0 a n s = .next t) ∨
    (s.cop = .startS1 a n ∧ startStepS1 s = .next t) := by
  unfold execStart
  split <;> rename_i h <;> try split
  all_goals simp_all [next_eq, -Host.Outcome.next.injEq]

/-- The state after an accepted `START` has armed the sequencer and pushed the priming byte. -/
abbrev State.primed (s : State) (a n : Word) : State :=
  txPush { s with tx := Tx.arm a n } [txByte s.txmem a.toNat]

theorem startStepS0_next {a n : Word} : startStepS0 a n s = .next t ↔
    (s.tx.fin = false ∧ t = complete s .busy 0#16) ∨
    (s.tx.fin = true ∧ n = 0#16 ∧ t = complete s .ok 0#16) ∨
    (s.tx.fin = true ∧ n ≠ 0#16 ∧ s.ch.mode = .nonblocking ∧ t = complete (s.primed a n) .ok 0#16) ∨
    (s.tx.fin = true ∧ n ≠ 0#16 ∧ s.ch.mode = .blocking ∧ t = gotoLabel (s.primed a n) (.startS1 a n)) := by
  unfold startStepS0
  split
  · simp_all [next_eq, -Host.Outcome.next.injEq]
  · split
    · simp_all [next_eq, -Host.Outcome.next.injEq]
    · rw [memRead_word, onOk_ok]
      dsimp only
      split <;> rename_i h <;> rw [txPush_ch] at h <;> simp_all [next_eq, -Host.Outcome.next.injEq]

theorem startStepS1_next : startStepS1 s = .next t ↔
    (s.tx.fin = true ∧ t = complete s .ok s.tx.len) ∨
    (s.tx.fin = false ∧ ((∃ u, Asked s true u ∧ t = complete { u with tx := u.tx.finish } .timeout u.tx.sent) ∨
      Asked s false t)) := by
  unfold startStepS1
  split
  · simp_all [next_eq, -Host.Outcome.next.injEq]
  · rw [waitIteration_next]
    simp_all

/-! ## All operations at once -/

/-- The state after `DrainOne()` has delivered `b`. -/
abbrev State.drained (s : State) (b : Byte) : State :=
  { s with out := s.out ++ [b], ring := { s.ring with rd := nextIndex s.cfg.n s.ring.rd } }

/-- The byte at `ring.rd`, which `DrainOne()` delivers. -/
abbrev State.oldest (s : State) (b : Byte) : Prop :=
  s.ring.rd.toNat < s.cfg.n ∧ s.ring.storage.get? s.ring.rd.toNat = some b

/-- Everything one step of an operation can do: the operation, when, and the state it answers. -/
inductive StepCase (s : State) : Instr → State → Prop
  | pushReject (b : Byte) : s.ring.wr.toNat < s.cfg.n → nextIndex s.cfg.n s.ring.wr = s.ring.rd →
      StepCase s (.push b)
        { s with ring := { s.ring with storage := s.ring.storage.set s.ring.wr.toNat b, ovf := true } }
  | pushAccept (b : Byte) : s.ring.wr.toNat < s.cfg.n → nextIndex s.cfg.n s.ring.wr ≠ s.ring.rd →
      StepCase s (.push b)
        { s with ring := { s.ring with
          storage := s.ring.storage.set s.ring.wr.toNat b, wr := nextIndex s.cfg.n s.ring.wr } }
  | txevIdle : s.tx.fin = true → StepCase s .txev s
  | txevBurst (bs : List Byte) : s.tx.fin = false →
      memReadRun s (s.txAddr s.tx.sent.toNat) s.burst = .ok bs →
      StepCase s .txev { s with txd := s.txd ++ bs, tx := s.tx.advance s.burst }
  | count : s.cop = .idle → StepCase s .count (complete s .ok (BitVec.ofNat 16 s.count))
  | isovf : s.cop = .idle → StepCase s .isovf (complete s .ok (flagWord s.ring.ovf))
  | peeklnOvf : s.cop = .idle → s.ring.ovf = true → StepCase s .peekln (complete s .overflow 0#16)
  | peeklnScan (d : Nat) : s.cop = .idle → s.ring.ovf = false → scanFrom s 0 s.count = .ok d →
      StepCase s .peekln (complete s .ok (BitVec.ofNat 16 d))
  | clear : s.cop = .idle → StepCase s .clear (complete { s with ring := s.ring.cleared } .ok 0#16)
  | isfin : s.cop = .idle → StepCase s .isfin (complete s .ok (flagWord s.tx.fin))
  | clrtx : s.cop = .idle → StepCase s .clrtx (complete { s with tx := s.tx.finish } .ok 0#16)
  | setmode (m : Mode) : s.cop = .idle →
      StepCase s (.setmode m) (complete { s with ch := { s.ch with mode := m } } .ok 0#16)
  | setdelim (b : Byte) : s.cop = .idle →
      StepCase s (.setdelim b) (complete { s with ch := { s.ch with delim := b } } .ok 0#16)
  | rdnbAccept (max : Word) : s.cop = .idle → StepCase s (.rdnb max) (gotoLabel s (.rdnbS max))
  | rdnbNone (max : Word) : s.cop = .rdnbS max → BitVec.ofNat 16 (s.batch max) = 0#16 →
      StepCase s (.rdnb max) (complete s .ok 0#16)
  | rdnbSome (max : Word) : s.cop = .rdnbS max → BitVec.ofNat 16 (s.batch max) ≠ 0#16 →
      StepCase s (.rdnb max) (gotoLabel s (.rdnbD max (BitVec.ofNat 16 (s.batch max)) 0#16))
  | rdnbLast (max n cnt : Word) (b : Byte) : s.cop = .rdnbD max n cnt → s.oldest b → bump cnt = n →
      StepCase s (.rdnb max) (complete (s.drained b) .ok n)
  | rdnbMore (max n cnt : Word) (b : Byte) : s.cop = .rdnbD max n cnt → s.oldest b → bump cnt ≠ n →
      StepCase s (.rdnb max) (gotoLabel (s.drained b) (.rdnbD max n (bump cnt)))
  | readAccept (max : Word) : s.cop = .idle → StepCase s (.read max) (gotoLabel s (.readW max))
  | readGo (max : Word) : s.cop = .readW max → s.ring.rd ≠ s.ring.wr →
      StepCase s (.read max) (gotoLabel s (.readD max 0#16))
  | readTimeout (max : Word) (u : State) : s.cop = .readW max → s.ring.rd = s.ring.wr → Asked s true u →
      StepCase s (.read max) (complete u .timeout 0#16)
  | readWait (max : Word) (u : State) : s.cop = .readW max → s.ring.rd = s.ring.wr → Asked s false u →
      StepCase s (.read max) u
  | readDone (max cnt : Word) : s.cop = .readD max cnt → (cnt = max ∨ s.ring.rd = s.ring.wr) →
      StepCase s (.read max) (complete s .ok cnt)
  | readDrain (max cnt : Word) (b : Byte) : s.cop = .readD max cnt → cnt ≠ max → s.ring.rd ≠ s.ring.wr →
      s.oldest b → StepCase s (.read max) (gotoLabel (s.drained b) (.readD max (bump cnt)))
  | readfAccept (max : Word) : s.cop = .idle → StepCase s (.readf max) (gotoLabel s (.readfF max 0#16))
  | readfDone (max : Word) : s.cop = .readfF max max → StepCase s (.readf max) (complete s .ok max)
  | readfInner (max total : Word) : s.cop = .readfF max total → total ≠ max →
      StepCase s (.readf max) (gotoLabel s (.readfW max total 0#16))
  | readfGo (max total cnt : Word) : s.cop = .readfW max total cnt → s.ring.rd ≠ s.ring.wr →
      StepCase s (.readf max) (gotoLabel s (.readfD max total cnt))
  | readfTimeout (max total cnt : Word) (u : State) : s.cop = .readfW max total cnt → s.ring.rd = s.ring.wr →
      Asked s true u → StepCase s (.readf max) (complete u .timeout total)
  | readfWait (max total cnt : Word) (u : State) : s.cop = .readfW max total cnt → s.ring.rd = s.ring.wr →
      Asked s false u → StepCase s (.readf max) u
  | readfBatch (max total cnt : Word) : s.cop = .readfD max total cnt →
      (total.toNat + cnt.toNat = max.toNat ∨ s.ring.rd = s.ring.wr) →
      StepCase s (.readf max) (gotoLabel s (.readfF max (total + cnt)))
  | readfDrain (max total cnt : Word) (b : Byte) : s.cop = .readfD max total cnt →
      total.toNat + cnt.toNat ≠ max.toNat → s.ring.rd ≠ s.ring.wr → s.oldest b →
      StepCase s (.readf max) (gotoLabel (s.drained b) (.readfD max total (bump cnt)))
  | rdlineAccept (size : Word) : s.cop = .idle → rdlineLegal size = true →
      StepCase s (.rdline size) (gotoLabel s (.rdlineL size 0#16))
  | rdlineIllegal (size : Word) : s.cop = .idle → rdlineLegal size = false →
      StepCase s (.rdline size) (complete s .illegal 0#16)
  | rdlineFull (size cnt : Word) : s.cop = .rdlineL size cnt → cnt.toNat = size.toNat - 1 →
      StepCase s (.rdline size) (stopLine s .ok cnt)
  | rdlineBad (size cnt : Word) : s.cop = .rdlineL size cnt → cnt.toNat ≠ size.toNat - 1 → s.ring.ovf = true →
      StepCase s (.rdline size) (stopLine s .badline cnt)
  | rdlineTimeout (size cnt : Word) (u : State) : s.cop = .rdlineL size cnt → cnt.toNat ≠ size.toNat - 1 →
      s.ring.ovf = false → s.ring.rd = s.ring.wr → Asked s true u →
      StepCase s (.rdline size) (stopLine u .timeout cnt)
  | rdlineWait (size cnt : Word) (u : State) : s.cop = .rdlineL size cnt → cnt.toNat ≠ size.toNat - 1 →
      s.ring.ovf = false → s.ring.rd = s.ring.wr → Asked s false u → StepCase s (.rdline size) u
  | rdlineDelim (size cnt : Word) : s.cop = .rdlineL size cnt → cnt.toNat ≠ size.toNat - 1 →
      s.ring.ovf = false → s.ring.rd ≠ s.ring.wr → s.oldest s.ch.delim →
      StepCase s (.rdline size) (stopLine (s.drained s.ch.delim) .ok (bump cnt))
  | rdlineByte (size cnt : Word) (b : Byte) : s.cop = .rdlineL size cnt → cnt.toNat ≠ size.toNat - 1 →
      s.ring.ovf = false → s.ring.rd ≠ s.ring.wr → s.oldest b → b ≠ s.ch.delim →
      StepCase s (.rdline size) (gotoLabel (s.drained b) (.rdlineL size (bump cnt)))
  | startAccept (a n : Word) : s.cop = .idle → startLegal a n = true →
      StepCase s (.start a n) (gotoLabel s (.startS0 a n))
  | startIllegal (a n : Word) : s.cop = .idle → startLegal a n = false →
      StepCase s (.start a n) (complete s .illegal 0#16)
  | startBusy (a n : Word) : s.cop = .startS0 a n → s.tx.fin = false →
      StepCase s (.start a n) (complete s .busy 0#16)
  | startNone (a : Word) : s.cop = .startS0 a 0#16 → s.tx.fin = true →
      StepCase s (.start a 0#16) (complete s .ok 0#16)
  | startArm (a n : Word) : s.cop = .startS0 a n → s.tx.fin = true → n ≠ 0#16 → s.ch.mode = .nonblocking →
      StepCase s (.start a n) (complete (s.primed a n) .ok 0#16)
  | startArmWait (a n : Word) : s.cop = .startS0 a n → s.tx.fin = true → n ≠ 0#16 → s.ch.mode = .blocking →
      StepCase s (.start a n) (gotoLabel (s.primed a n) (.startS1 a n))
  | startDone (a n : Word) : s.cop = .startS1 a n → s.tx.fin = true →
      StepCase s (.start a n) (complete s .ok s.tx.len)
  | startTimeout (a n : Word) (u : State) : s.cop = .startS1 a n → s.tx.fin = false → Asked s true u →
      StepCase s (.start a n) (complete { u with tx := u.tx.finish } .timeout u.tx.sent)
  | startWait (a n : Word) (u : State) : s.cop = .startS1 a n → s.tx.fin = false → Asked s false u →
      StepCase s (.start a n) u

/-- What `exec` answers is one of the cases. -/
theorem exec_cases {i : Instr} (h : exec i s = .next t) : StepCase s i t := by
  cases i <;> simp only [exec] at h
  case push b =>
    obtain ⟨hw, ⟨h0, rfl⟩ | ⟨h0, rfl⟩⟩ := execPush_next.1 h
    · exact .pushReject b hw h0
    · exact .pushAccept b hw h0
  case txev =>
    obtain ⟨h0, rfl⟩ | ⟨h0, bs, hb, rfl⟩ := execTxev_next.1 h
    · exact .txevIdle h0
    · exact .txevBurst bs h0 hb
  case count => obtain ⟨hc, rfl⟩ := execCount_next.1 h; exact .count hc
  case isovf => obtain ⟨hc, rfl⟩ := execIsovf_next.1 h; exact .isovf hc
  case rdnb max =>
    obtain ⟨hc, rfl⟩ | ⟨hc, h⟩ | ⟨n, cnt, hc, h⟩ := execRdnb_next.1 h
    · exact .rdnbAccept max hc
    · obtain ⟨h0, rfl⟩ | ⟨h0, rfl⟩ := rdnbStepS_next.1 h
      · exact .rdnbNone max hc h0
      · exact .rdnbSome max hc h0
    · obtain ⟨b, u, hd, h⟩ := rdnbStepD_next.1 h
      obtain ⟨hb, rfl⟩ := drainOne_ok.1 hd
      obtain ⟨h0, rfl⟩ | ⟨h0, rfl⟩ := h
      · exact .rdnbLast max n cnt b hc hb h0
      · exact .rdnbMore max n cnt b hc hb h0
  case read max =>
    obtain ⟨hc, rfl⟩ | ⟨hc, h⟩ | ⟨cnt, hc, h⟩ := execRead_next.1 h
    · exact .readAccept max hc
    · obtain ⟨h0, rfl⟩ | ⟨h0, ⟨u, ha, rfl⟩ | ha⟩ := readStepW_next.1 h
      · exact .readGo max hc h0
      · exact .readTimeout max u hc h0 ha
      · exact .readWait max t hc h0 ha
    · obtain ⟨h0, rfl⟩ | ⟨h0, h1, b, u, hd, rfl⟩ := readStepD_next.1 h
      · exact .readDone max cnt hc h0
      · obtain ⟨hb, rfl⟩ := drainOne_ok.1 hd
        exact .readDrain max cnt b hc h0 h1 hb
  case readf max =>
    obtain ⟨hc, rfl⟩ | ⟨total, hc, h⟩ | ⟨total, cnt, hc, h⟩ | ⟨total, cnt, hc, h⟩ := execReadf_next.1 h
    · exact .readfAccept max hc
    · obtain ⟨rfl, rfl⟩ | ⟨h0, rfl⟩ := readfStepF_next.1 h
      · exact .readfDone total hc
      · exact .readfInner max total hc h0
    · obtain ⟨h0, rfl⟩ | ⟨h0, ⟨u, ha, rfl⟩ | ha⟩ := readfStepW_next.1 h
      · exact .readfGo max total cnt hc h0
      · exact .readfTimeout max total cnt u hc h0 ha
      · exact .readfWait max total cnt t hc h0 ha
    · obtain ⟨h0, rfl⟩ | ⟨h0, h1, b, u, hd, rfl⟩ := readfStepD_next.1 h
      · exact .readfBatch max total cnt hc h0
      · obtain ⟨hb, rfl⟩ := drainOne_ok.1 hd
        exact .readfDrain max total cnt b hc h0 h1 hb
  case rdline size =>
    obtain ⟨hc, hl, rfl⟩ | ⟨hc, hl, rfl⟩ | ⟨cnt, hc, h⟩ := execRdline_next.1 h
    · exact .rdlineAccept size hc hl
    · exact .rdlineIllegal size hc hl
    · obtain ⟨h0, rfl⟩ | ⟨h0, h1, rfl⟩ | ⟨h0, h1, h2, ⟨u, ha, rfl⟩ | ha⟩ |
        ⟨h0, h1, h2, b, u, hd, h⟩ := rdlineStepL_next.1 h
      · exact .rdlineFull size cnt hc h0
      · exact .rdlineBad size cnt hc h0 h1
      · exact .rdlineTimeout size cnt u hc h0 h1 h2 ha
      · exact .rdlineWait size cnt t hc h0 h1 h2 ha
      · obtain ⟨hb, rfl⟩ := drainOne_ok.1 hd
        obtain ⟨h3, rfl⟩ | ⟨h3, rfl⟩ := h
        · have h3 : b = s.ch.delim := h3
          subst h3
          exact .rdlineDelim size cnt hc h0 h1 h2 hb
        · exact .rdlineByte size cnt b hc h0 h1 h2 hb h3
  case peekln =>
    obtain ⟨hc, ⟨h0, rfl⟩ | ⟨h0, d, hd, rfl⟩⟩ := execPeekln_next.1 h
    · exact .peeklnOvf hc h0
    · exact .peeklnScan d hc h0 hd
  case clear => obtain ⟨hc, rfl⟩ := execClear_next.1 h; exact .clear hc
  case start a n =>
    obtain ⟨hc, hl, rfl⟩ | ⟨hc, hl, rfl⟩ | ⟨hc, h⟩ | ⟨hc, h⟩ := execStart_next.1 h
    · exact .startAccept a n hc hl
    · exact .startIllegal a n hc hl
    · obtain ⟨h0, rfl⟩ | ⟨h0, rfl, rfl⟩ | ⟨h0, h1, h2, rfl⟩ | ⟨h0, h1, h2, rfl⟩ := startStepS0_next.1 h
      · exact .startBusy a n hc h0
      · exact .startNone a hc h0
      · exact .startArm a n hc h0 h1 h2
      · exact .startArmWait a n hc h0 h1 h2
    · obtain ⟨h0, rfl⟩ | ⟨h0, ⟨u, ha, rfl⟩ | ha⟩ := startStepS1_next.1 h
      · exact .startDone a n hc h0
      · exact .startTimeout a n u hc h0 ha
      · exact .startWait a n t hc h0 ha
  case isfin => obtain ⟨hc, rfl⟩ := execIsfin_next.1 h; exact .isfin hc
  case clrtx => obtain ⟨hc, rfl⟩ := execClrtx_next.1 h; exact .clrtx hc
  case setmode m => obtain ⟨hc, rfl⟩ := execSetmode_next.1 h; exact .setmode m hc
  case setdelim b => obtain ⟨hc, rfl⟩ := execSetdelim_next.1 h; exact .setdelim b hc

/-! ## The step -/

theorem step_cons {i : Input} {rest : List Input} (h : s.schedule = i :: rest) :
    step s = takeInput i { s with schedule := rest } := by
  simp [step, nextStep, h]

theorem step_nil (h : s.schedule = []) : step s = advanceC s := by
  simp [step, nextStep, h]

theorem instr?_none {c : Cop} : c.instr? = none ↔ c = .idle := by
  cases c <;> simp [Cop.instr?]

theorem advanceC_cases (h : advanceC s = .next t) :
    (∃ i, s.cop.instr? = some i ∧ exec i s = .next t) ∨ (s.cop = .idle ∧ t = s) := by
  unfold advanceC at h
  split at h
  · exact .inl ⟨_, ‹_›, h⟩
  · exact .inr ⟨instr?_none.1 ‹_›, next_eq.1 h⟩

/-- Everything one step can do, by what the schedule says next. -/
inductive StepTaken (s : State) (t : State) : Prop
  | opP (w : Cmd) (i : Instr) (rest : List Input) : s.schedule = .cmdP w :: rest → decode w = .ok i →
      i.port = .P → exec i { s with schedule := rest } = .next t → StepTaken s t
  | ignoredP (w : Cmd) (rest : List Input) : s.schedule = .cmdP w :: rest →
      (∀ i, decode w = .ok i → i.port = .C) → t = { s with schedule := rest } → StepTaken s t
  | opC (w : Cmd) (i : Instr) (rest : List Input) : s.schedule = .cmdC w :: rest → s.cop = .idle →
      decode w = .ok i → i.port = .C → exec i { s with schedule := rest } = .next t → StepTaken s t
  | illegalC (w : Cmd) (rest : List Input) : s.schedule = .cmdC w :: rest → s.cop = .idle →
      (∀ i, decode w = .ok i → i.port = .P) → t = complete { s with schedule := rest } .illegal 0#16 → StepTaken s t
  | turnC (i : Instr) (rest : List Input) : (s.schedule = .stepC :: rest ∨ s.schedule = [] ∧ rest = []) →
      s.cop.instr? = some i → exec i { s with schedule := rest } = .next t → StepTaken s t
  | idleC (rest : List Input) : (s.schedule = .stepC :: rest ∨ s.schedule = [] ∧ rest = []) →
      s.cop = .idle → t = { s with schedule := rest } → StepTaken s t
  | env (a : Word) (b : Byte) (rest : List Input) : s.schedule = .envWrite a b :: rest →
      t = envWrite { s with schedule := rest } a b → StepTaken s t

theorem port_cases (i : Instr) : i.port = .P ∨ i.port = .C := by
  cases i <;> simp [Instr.port]

theorem step_cases (h : step s = .next t) : StepTaken s t := by
  cases hs : s.schedule with
  | nil =>
    rw [step_nil hs] at h
    have hself : { s with schedule := [] } = s := by rw [← hs]
    obtain ⟨i, hi, he⟩ | ⟨hc, rfl⟩ := advanceC_cases h
    · exact .turnC i [] (.inr ⟨hs, rfl⟩) hi (hself ▸ he)
    · exact .idleC [] (.inr ⟨hs, rfl⟩) hc hself.symm
  | cons i rest =>
    rw [step_cons hs] at h
    cases i with
    | cmdP w =>
      simp only [takeInput, presentP] at h
      split at h
      · rename_i i hd
        split at h
        · exact .opP w i rest hs hd ‹_› h
        · refine .ignoredP w rest hs (fun j hj => ?_) (next_eq.1 h)
          rw [hd] at hj
          injection hj with hj
          subst hj
          exact (port_cases i).resolve_left ‹_›
      · rename_i e hd
        exact .ignoredP w rest hs (fun j hj => by rw [hd] at hj; cases hj) (next_eq.1 h)
    | cmdC w =>
      simp only [takeInput, presentC] at h
      split at h
      · rename_i hc
        split at h
        · rename_i i hd
          split at h
          · exact .opC w i rest hs hc hd ‹_› h
          · refine .illegalC w rest hs hc (fun j hj => ?_) (next_eq.1 h)
            rw [hd] at hj
            injection hj with hj
            subst hj
            exact (port_cases i).resolve_right ‹_›
        · rename_i e hd
          exact .illegalC w rest hs hc (fun j hj => by rw [hd] at hj; cases hj) (next_eq.1 h)
      · cases h
    | stepC =>
      obtain ⟨i, hi, he⟩ | ⟨hc, rfl⟩ := advanceC_cases h
      · exact .turnC i rest (.inl hs) hi he
      · exact .idleC rest (.inl hs) hc rfl
    | envWrite a b => exact .env a b rest hs (next_eq.1 h)

/-- A run of `a + b` steps is a run of `a` steps and then one of `b`. -/
theorem steps_add {a b : Nat} {s u : State} (h : steps a s = .next u) : steps (a + b) s = steps b u := by
  induction a generalizing s with
  | zero => rw [Nat.zero_add, next_eq.1 h]
  | succ a ih =>
    rw [Nat.succ_add]
    simp only [steps] at h ⊢
    split at h
    · exact ih h
    · cases h
    · cases h

end Sys2Proof.Machine
end

