-- ==== Sys2Proof/Laws/PerInstr.lean ====
section
/-! SUPPORT. Per-instruction facts about the encoding: the word of every operation selects the row of the opcode map
that has its opcode and its format, and leaves every reserved bit 0 (30_encoding R91, R93). -/

namespace Sys2Proof.Laws.EncodedRow

/-- The word of `i` has the opcode of `i` and 0 in every bit its format reserves. -/
def Statement (i : Instr) : Prop :=
  encode i &&& i.format.mask = (i.opcode ++ (0#16 ++ 0#16) : BitVec 40)

/-- For a format that reserves `ma` of `A` and `mb` of `B`, the two fields decide. -/
theorem of_fields {i : Instr} (ha : i.aWord &&& i.format.aMask = 0#16) (hb : i.bWord &&& i.format.bMask = 0#16) :
    Statement i :=
  (row_select_iff ⟨i.opcode, i.format, fun _ => i⟩ (encode i)).2 ⟨opField_encode i, by simpa using ha, by simpa using hb⟩

theorem low_byte (b : Byte) : (b.setWidth 16 : Word) &&& 0xFF00#16 = 0#16 := by
  rw [and_ff00]
  simp

theorem push (b : Byte) : Statement (.push b) := of_fields BitVec.zero_and (low_byte b)
theorem txev : Statement .txev := of_fields (by decide) (by decide)
theorem count : Statement .count := of_fields (by decide) (by decide)
theorem isovf : Statement .isovf := of_fields (by decide) (by decide)
theorem rdnb (max : Word) : Statement (.rdnb max) := of_fields BitVec.zero_and BitVec.and_zero
theorem read (max : Word) : Statement (.read max) := of_fields BitVec.zero_and BitVec.and_zero
theorem readf (max : Word) : Statement (.readf max) := of_fields BitVec.zero_and BitVec.and_zero
theorem rdline (maxSize : Word) : Statement (.rdline maxSize) := of_fields BitVec.zero_and BitVec.and_zero
theorem peekln : Statement .peekln := of_fields (by decide) (by decide)
theorem clear : Statement .clear := of_fields (by decide) (by decide)
theorem start (addr len : Word) : Statement (.start addr len) := of_fields BitVec.and_zero BitVec.and_zero
theorem isfin : Statement .isfin := of_fields (by decide) (by decide)
theorem clrtx : Statement .clrtx := of_fields (by decide) (by decide)
theorem setmode (m : Mode) : Statement (.setmode m) := by cases m <;> exact of_fields (by decide) (by decide)
theorem setdelim (b : Byte) : Statement (.setdelim b) := of_fields BitVec.zero_and (low_byte b)

end Sys2Proof.Laws.EncodedRow
end

