-- ==== Sys2Proof/Tests/Slice0.lean ====
section
/-! SUPPORT. The model's own tests. The expected values are the spec's: the examples of the numbered rules and of
95_test_vectors. Then one witness for each obligation that has hypotheses: a concrete state and operands that meet
them together, for each clause. -/

namespace Sys2Proof.Tests

open Sys2Proof Sys2Proof.Machine

/-! ## WellFormed (R95) -/

theorem test_wf_rdline_zero : Instr.wellFormed (.rdline 0#16) = false := by decide
theorem test_wf_rdline_one : Instr.wellFormed (.rdline 1#16) = true := by decide
theorem test_wf_start_past_the_end : Instr.wellFormed (.start 0xFFFF#16 2#16) = false := by decide
theorem test_wf_start_long : Instr.wellFormed (.start 0x0002#16 0xFFFF#16) = false := by decide
theorem test_wf_start_last_byte : Instr.wellFormed (.start 0xFFFF#16 1#16) = true := by decide
theorem test_wf_others : (Instr.push 0xFF#8).wellFormed = true ∧ (Instr.rdnb 0#16).wellFormed = true ∧
    (Instr.read 0#16).wellFormed = true ∧ (Instr.readf 0#16).wellFormed = true := by decide

/-! ## Decoding: the words of 95_test_vectors E1 and E2 -/

theorem test_decode_push : decode 0x0100000061#40 = .ok (.push 0x61#8) := by decide
theorem test_decode_push_ff : decode 0x01000000FF#40 = .ok (.push 0xFF#8) := by decide
theorem test_decode_txev : decode 0x0200000000#40 = .ok .txev := by decide
theorem test_decode_count : decode 0x1000000000#40 = .ok .count := by decide
theorem test_decode_isovf : decode 0x1100000000#40 = .ok .isovf := by decide
theorem test_decode_rdnb : decode 0x1200000010#40 = .ok (.rdnb 16#16) := by decide
theorem test_decode_read : decode 0x1300000001#40 = .ok (.read 1#16) := by decide
theorem test_decode_readf : decode 0x1400000200#40 = .ok (.readf 512#16) := by decide
theorem test_decode_rdline : decode 0x150000FFFF#40 = .ok (.rdline 65535#16) := by decide
theorem test_decode_peekln : decode 0x1600000000#40 = .ok .peekln := by decide
theorem test_decode_clear : decode 0x1700000000#40 = .ok .clear := by decide
theorem test_decode_start : decode 0x2001000005#40 = .ok (.start 0x0100#16 5#16) := by decide
theorem test_decode_start_last : decode 0x20FFFF0001#40 = .ok (.start 0xFFFF#16 1#16) := by decide
theorem test_decode_isfin : decode 0x2100000000#40 = .ok .isfin := by decide
theorem test_decode_clrtx : decode 0x2200000000#40 = .ok .clrtx := by decide
theorem test_decode_setmode_blocking : decode 0x3000000000#40 = .ok (.setmode .blocking) := by decide
theorem test_decode_setmode_nonblocking : decode 0x3000000001#40 = .ok (.setmode .nonblocking) := by decide
theorem test_decode_setdelim : decode 0x310000000D#40 = .ok (.setdelim 0x0D#8) := by decide

theorem test_decode_reserved_opcodes : decode 0x0000000000#40 = .error .reservedOpcode ∧
    decode 0x0300000000#40 = .error .reservedOpcode ∧ decode 0x1800000000#40 = .error .reservedOpcode ∧
    decode 0x2300000000#40 = .error .reservedOpcode ∧ decode 0xFF00000000#40 = .error .reservedOpcode := by decide

theorem test_decode_reserved_bits : decode 0x1000000001#40 = .error .reservedBits ∧
    decode 0x1200010010#40 = .error .reservedBits ∧ decode 0x3000000002#40 = .error .reservedBits ∧
    decode 0x3100000100#40 = .error .reservedBits ∧ decode 0x0100000161#40 = .error .reservedBits := by decide

theorem test_encode_start : encode (.start 0x0100#16 5#16) = 0x2001000005#40 := by decide
theorem test_encode_setmode : encode (.setmode .nonblocking) = 0x3000000001#40 := by decide

theorem test_decode_table_word : decodeTableWord 40 0x1500000050 = some (.rdline 80#16) ∧
    decodeTableWord 40 0x1000000001 = none := by decide

/-! ## One step on a small state -/

/-- A state with a given ring and `N = 4`, `K = 2`, a predicate, three bytes in `TXMEM`, else as after reset. -/
def small (storage : Memory) (rd wr : Word) (ovf : Bool) : State :=
  { State.construct { n := 4, k := 2, hasTimeout := true } with
    ring := { storage := storage, rd := rd, wr := wr, ovf := ovf }
    txmem := [(0x0100, 0x48#8), (0x0101, 0x69#8), (0x0102, 0x21#8)] }

/-- The ring holds `a`, newline, `z`, across the wrap: it is full, and slot 2 is the one outside. -/
def full : State := small [(0, 0x0A#8), (1, 0x7A#8), (2, 0x63#8), (3, 0x61#8)] 3#16 2#16 false

/-- The ring holds `a`, newline, from slot 3 across the wrap. -/
def line : State := small [(0, 0x0A#8), (3, 0x61#8)] 3#16 1#16 false

/-- Nothing stored. -/
def empty : State := small [] 0#16 0#16 false

/-- A transmission of three bytes at 0x0100, the priming byte pushed (R171's example). -/
def sending : State :=
  { empty with tx := { base := 0x0100#16, len := 3#16, sent := 1#16, fin := false }, txd := [0x48#8] }

/-- The same transmission with `START` waiting for it. -/
def waiting : State := { sending with cop := .startS1 0x0100#16 3#16 }

/-- The state of a `next`. -/
def after : Result → Option State
  | .next t => some t
  | .fault _ => none
  | .refused _ => none

/-- The status and the value of `RES`, and what is in `OUT`, after one step of an operation. -/
def answer (i : Instr) (s : State) : Option (ResWord × List Byte) := (after (exec i s)).map fun t => (t.res, t.out)

/-- R120's example: the ring is full at `wr = 3`, `rd = 0`; the byte is stored and dropped. -/
theorem test_push_full : (after (exec (.push 0x44#8) (small [(0, 1#8), (1, 2#8), (2, 3#8)] 0#16 3#16 false))).map
    (fun t => (t.ring.storage.get? 3, t.ring.wr, t.ring.ovf)) = some (some 0x44#8, 3#16, true) := by decide

/-- R120, case wrap: accepted at slot 3, `wr` becomes 0, a flag that is set stays set. -/
theorem test_push_wrap : (after (exec (.push 0x44#8) (small [(1, 2#8), (2, 3#8)] 1#16 3#16 true))).map
    (fun t => (t.ring.storage.get? 3, t.ring.wr, t.ring.ovf)) = some (some 0x44#8, 0#16, true) := by decide

/-- R172 with `K = 2`: both bytes left go out in order and the transmission finishes. -/
theorem test_txev_last_burst : (after (exec .txev sending)).map (fun t => (t.txd, t.tx.sent, t.tx.fin)) =
    some ([0x48#8, 0x69#8, 0x21#8], 3#16, true) := by decide

/-- R172, `tx.len == 1`: the first event pushes nothing and sets `tx.fin`. -/
theorem test_txev_length_one : (after (exec .txev { sending with tx := Tx.arm 0x0100#16 1#16 })).map
    (fun t => (t.txd, t.tx.sent, t.tx.fin)) = some ([0x48#8], 1#16, true) := by decide

/-- R130's example: `N = 4`, `rd = 2`, `wr = 1` gives `(OK, 3)`. -/
theorem test_count_wrapped : answer .count (small [] 2#16 1#16 true) = some (0x000003#24, []) := by decide

theorem test_isovf_set : answer .isovf (small [] 0#16 0#16 true) = some (0x000001#24, []) := by decide

/-- R134: `n = min(2, 3)` at `S`. -/
theorem test_rdnb_snapshot : (after (exec (.rdnb 2#16) { full with cop := .rdnbS 2#16 })).map (·.cop) =
    some (.rdnbD 2#16 2#16 0#16) := by decide

/-- R134: the last byte leaves across the wrap and completes `(OK, 2)`. -/
theorem test_rdnb_last : (after (exec (.rdnb 2#16) { full with cop := .rdnbD 2#16 2#16 1#16 })).map
    (fun t => (t.out, t.ring.rd, t.cop, t.res)) = some ([0x61#8], 0#16, .idle, 0x000002#24) := by decide

/-- R135, D11: `READ 0` waits while the ring is empty; here the predicate fires: `(TIMEOUT, 0)`. -/
theorem test_read_timeout : answer (.read 0#16) { empty with cop := .readW 0#16, answers := [true] } =
    some (0x030000#24, []) := by decide

/-- R135: phase D ends when the ring is found empty, with fewer than `max` bytes. -/
theorem test_read_batch_ends : answer (.read 10#16) { empty with cop := .readD 10#16 2#16 } =
    some (0x000002#24, []) := by decide

/-- R136, D12: an inner timeout reports the bytes collected so far. -/
theorem test_readf_timeout : answer (.readf 3#16) { empty with cop := .readfW 3#16 1#16 0#16, answers := [true] } =
    some (0x030001#24, []) := by decide

/-- R136: the batch is added to the total. -/
theorem test_readf_batch : (after (exec (.readf 3#16) { empty with cop := .readfD 3#16 1#16 1#16 })).map (·.cop) =
    some (.readfF 3#16 2#16) := by decide

/-- R137: the delimiter is copied and counted, then the terminator. -/
theorem test_rdline_delimiter : (after (exec (.rdline 10#16)
    { small [(0, 0x0A#8)] 0#16 1#16 false with cop := .rdlineL 10#16 2#16 })).map (fun t => (t.res, t.out, t.ring.rd)) =
    some (0x000003#24, [0x0A#8, 0x00#8], 1#16) := by decide

/-- R137: overflow ends the line before the next byte, which stays stored. -/
theorem test_rdline_overflow : (after (exec (.rdline 10#16)
    { small [(0, 0x0A#8)] 0#16 1#16 true with cop := .rdlineL 10#16 0#16 })).map (fun t => (t.res, t.out, t.ring.rd)) =
    some (0x040000#24, [0x00#8], 0#16) := by decide

/-- R138: the distance to and including the delimiter, across the wrap; with the flag set, `OVERFLOW`. -/
theorem test_peekln_wrapped : answer .peekln line = some (0x000002#24, []) := by decide
theorem test_peekln_overflow : answer .peekln { line with ring := { line.ring with ovf := true } } =
    some (0x020000#24, []) := by decide

/-- R141's example. -/
theorem test_clear : (after (exec .clear (small [(2, 1#8), (3, 2#8), (0, 3#8)] 2#16 1#16 true))).map
    (fun t => (t.ring.rd, t.ring.wr, t.ring.ovf, t.res)) = some (0#16, 0#16, false, 0x000000#24) := by decide

/-- R171's example: armed, the priming byte pushed, `(OK, 0)` in non-blocking mode. -/
theorem test_start_nonblocking : (after (exec (.start 0x0100#16 3#16)
    { empty with cop := .startS0 0x0100#16 3#16, ch := { mode := .nonblocking, delim := 0x0A#8 } })).map
    (fun t => (t.tx, t.txd, t.res, t.cop)) =
    some ({ base := 0x0100#16, len := 3#16, sent := 1#16, fin := false }, [0x48#8], 0x000000#24, .idle) := by decide

/-- R171: a blocking `START` that times out reports `tx.sent` and abandons the rest. -/
theorem test_start_timeout : (after (exec (.start 0x0100#16 3#16) { waiting with answers := [true] })).map
    (fun t => (t.tx.fin, t.tx.sent, t.res, t.cop)) = some (true, 1#16, 0x030001#24, .idle) := by decide

theorem test_isfin_sending : answer .isfin sending = some (0x000000#24, []) := by decide

/-- R174: `tx.sent` and `tx.len` keep their values. -/
theorem test_clrtx : (after (exec .clrtx sending)).map (fun t => (t.tx.fin, t.tx.sent, t.tx.len, t.res)) =
    some (true, 1#16, 3#16, 0x000000#24) := by decide

theorem test_setmode : (after (exec (.setmode .nonblocking) empty)).map (fun t => (t.ch.mode, t.ch.delim, t.res)) =
    some (.nonblocking, 0x0A#8, 0x000000#24) := by decide

theorem test_setdelim : (after (exec (.setdelim 0x0D#8) empty)).map (fun t => (t.ch.mode, t.ch.delim, t.res)) =
    some (.blocking, 0x0D#8, 0x000000#24) := by decide

/-! ## The ports, the step, reset -/

/-- E2: `PUSH` at port C is illegal there; `COUNT` at port P is ignored. -/
theorem test_wrong_port_C : (after (step { full with schedule := [.cmdC 0x0100000061#40] })).map
    (fun t => (t.res, t.ring)) = some (0xFF0000#24, full.ring) := by decide
theorem test_wrong_port_P : after (step { full with schedule := [.cmdP 0x1000000000#40] }) = some full := by decide

theorem test_command_at_busy_port_C : after (step { waiting with schedule := [.cmdC 0x1000000000#40] }) = none := by
  decide

/-- The first step after reset runs the placed word, at either port. -/
theorem test_first_step_push : (after (step (State.reset.withFetchWord 40 0x0100000061))).map
    (fun t => (t.ring.storage, t.ring.wr)) = some ([(0, 0x61#8)], 1#16) := by decide
theorem test_first_step_read : (after (step (State.reset.withFetchWord 40 0x1300000001))).map (·.cop) =
    some (.readW 1#16) := by decide

theorem test_reset_memory : State.reset.ring.storage.ringWf 4 = true ∧ State.reset.txmem.wf = true := by decide

/-- R63: `txmem` written and written back to the value of an unlisted byte is the same memory. -/
theorem test_txmem_canonical : (envWrite (envWrite empty 0x0200#16 0x11#8) 0x0200#16 0x00#8).txmem = empty.txmem := by
  decide

/-! ## Witnesses: the hypotheses of the obligations hold together -/

theorem ringInv_full : RingInv full := ⟨by decide, by decide, by decide, by decide⟩
theorem ringInv_line : RingInv line := ⟨by decide, by decide, by decide, by decide⟩
theorem ringInv_empty : RingInv empty := ⟨by decide, by decide, by decide, by decide⟩
theorem txInv_idle : TxInv empty.tx := ⟨by decide, by decide, by decide, by decide⟩
theorem txInv_sending : TxInv sending.tx := ⟨by decide, by decide, by decide, by decide⟩

/-- `s` with a schedule. -/
abbrev running (s : State) (l : List Input) : State := { s with schedule := l }

theorem inv_full (l : List Input) : Inv (running full l) :=
  ⟨show full.cfg.wf by decide, ringInv_congr (s := full) rfl rfl ringInv_full, txInv_idle, trivial,
    show full.txmem.wf = true by decide⟩

theorem inv_line (l : List Input) : Inv (running line l) :=
  ⟨show line.cfg.wf by decide, ringInv_congr (s := line) rfl rfl ringInv_line, txInv_idle, trivial,
    show line.txmem.wf = true by decide⟩

theorem asked_listed (s : State) (b : Bool) (h : s.cfg.hasTimeout = true) :
    Asked { s with answers := [b] } b { s with answers := [] } :=
  .inr (.inl ⟨h, [], rfl, rfl⟩)

theorem asked_free (s : State) (h : s.cfg.hasTimeout = true) :
    Asked { s with answers := [] } (Config.freeTimeout s.draws) { s with answers := [], draws := s.draws + 1 } :=
  .inr (.inr ⟨h, rfl, rfl, rfl⟩)

theorem asked_none (s : State) (h : s.cfg.hasTimeout = false) : Asked s false s := .inl ⟨h, rfl, rfl⟩

theorem witness_EncodeDecodeRoundTrip : decode 0x20FFFF0001#40 = .ok (.start 0xFFFF#16 1#16) := by decide

theorem not_decoded {w : Cmd} {e : Reject} (h : decode w = .error e) (P : Instr → Prop) :
    ∀ i, decode w = .ok i → P i := fun i hi => by rw [h] at hi; cases hi

theorem only_decodes {w : Cmd} {j : Instr} (h : decode w = .ok j) {P : Instr → Prop} (hp : P j) :
    ∀ i, decode w = .ok i → P i := fun i hi => by
  rw [h] at hi
  injection hi with hi
  exact hi ▸ hp

/-- A reserved opcode, the wrong port, and each refused operand; and each of the first two at port P. -/
theorem witness_IllegalCommandChangesNothingButRes :
    (∀ w ∈ [0x1000000001#40, 0x0100000061#40, 0x1500000000#40, 0x20FFFF0002#40],
      (running full [.cmdC w]).schedule = .cmdC w :: [] ∧ (running full [.cmdC w]).cop = .idle ∧
      ∀ i, decode w = .ok i →
        i.port = .P ∨ i = .rdline 0#16 ∨ ∃ a n : Word, i = .start a n ∧ 0x10000 < a.toNat + n.toNat) ∧
    (∀ w ∈ [0x0300000000#40, 0x1000000000#40],
      (running full [.cmdP w]).schedule = .cmdP w :: [] ∧ ∀ i, decode w = .ok i → i.port = .C) := by
  refine ⟨?_, ?_⟩ <;> intro w hw <;> simp only [List.mem_cons, List.not_mem_nil, or_false] at hw
  · rcases hw with rfl | rfl | rfl | rfl <;> refine ⟨rfl, rfl, ?_⟩
    · exact not_decoded (e := .reservedBits) (by decide) _
    · exact only_decodes (j := .push 0x61#8) (by decide) (.inl rfl)
    · exact only_decodes (j := .rdline 0#16) (by decide) (.inr (.inl rfl))
    · exact only_decodes (j := .start 0xFFFF#16 2#16) (by decide) (.inr (.inr ⟨_, _, rfl, by decide⟩))
  · rcases hw with rfl | rfl <;> refine ⟨rfl, ?_⟩
    · exact not_decoded (e := .reservedOpcode) (by decide) _
    · exact only_decodes (j := .count) (by decide) rfl

theorem witness_StepRunsTheDecodedCommand :
    ((running full [.cmdP 0x0100000061#40]).schedule = .cmdP 0x0100000061#40 :: [] ∧
      decode 0x0100000061#40 = .ok (.push 0x61#8) ∧ (Instr.push 0x61#8).port = .P) ∧
    ((running full [.cmdC 0x1000000000#40]).schedule = .cmdC 0x1000000000#40 :: [] ∧ full.cop = .idle ∧
      decode 0x1000000000#40 = .ok .count ∧ Instr.count.port = .C) ∧
    ((running waiting [.stepC]).schedule = .stepC :: [] ∧
      (running waiting [.stepC]).cop.instr? = some (.start 0x0100#16 3#16)) ∧
    (waiting.schedule = [] ∧ waiting.cop.instr? = some (.start 0x0100#16 3#16)) ∧
    ((running full [.stepC]).schedule = .stepC :: [] ∧ (running full [.stepC]).cop = .idle) ∧
    (full.schedule = [] ∧ full.cop = .idle) := by decide

theorem witness_PlacedWordRunsNext :
    (decodeTableWord 40 0x0100000061 = some (.push 0x61#8) ∧ (Instr.push 0x61#8).port = .P) ∧
    (decodeTableWord 40 0x1000000000 = some .count ∧ Instr.count.port = .C) := by decide

theorem witness_PortCHoldsOneOperation :
    ((running waiting [.cmdC 0x1000000000#40]).schedule = .cmdC 0x1000000000#40 :: [] ∧ waiting.cop ≠ .idle) ∧
    (Instr.count.port = .C ∧ waiting.cop ≠ .idle ∧ waiting.cop.instr? ≠ some .count) := by decide

/-- The ring is full, and is not full. -/
theorem witness_PushStoresThenAdvancesOrFlagsOverflow :
    (full.cfg.wf ∧ full.ring.wr.toNat < full.cfg.n ∧ (full.ring.wr.toNat + 1) % full.cfg.n = full.ring.rd.toNat) ∧
    (line.cfg.wf ∧ line.ring.wr.toNat < line.cfg.n ∧ (line.ring.wr.toNat + 1) % line.cfg.n ≠ line.ring.rd.toNat) := by
  decide

theorem witness_PushAppendsToTheStoredBytes :
    (full.cfg.wf ∧ RingInv full ∧ full.count = full.cfg.n - 1 ∧ ∃ t, exec (.push 0x44#8) full = .next t) ∧
    (line.cfg.wf ∧ RingInv line ∧ line.count ≠ line.cfg.n - 1 ∧ ∃ t, exec (.push 0x44#8) line = .next t) :=
  ⟨⟨by decide, ringInv_full, by decide, _, rfl⟩, ⟨by decide, ringInv_line, by decide, _, rfl⟩⟩

theorem witness_OldestBytesKeptNewestDropped :
    let bs := [0x11#8, 0x22#8, 0x33#8, 0x44#8]
    let s := running empty (bs.map fun b => .cmdP (encode (.push b)))
    s.cfg.wf ∧ RingInv s ∧ s.ring.rd = s.ring.wr ∧ s.ring.ovf = false ∧
      s.schedule = bs.map (fun b => .cmdP (encode (.push b))) ∧ s.cop = .idle :=
  ⟨by decide, ringInv_congr (s := empty) rfl rfl ringInv_empty, rfl, rfl, rfl, rfl⟩

theorem witness_CountAnswersTheResidue : full.cfg.wf ∧ full.cop = .idle := by decide

/-- Empty, full and between. -/
theorem witness_CountTellsEmptyAndFull : ∀ s ∈ [empty, full, line],
    s.cfg.wf ∧ s.cop = .idle ∧ s.ring.rd.toNat < s.cfg.n ∧ s.ring.wr.toNat < s.cfg.n := by decide

theorem witness_IsovfAnswersTheFlag : full.cop = .idle := by decide

/-- Port C free, the smallest legal size of a line, and a buffer that ends at the top of `TXMEM`. -/
theorem witness_CompoundCommandsAreTakenUp :
    full.cop = .idle ∧ 1#16 ≠ 0#16 ∧ (0xFFFF#16).toNat + (1#16).toNat ≤ 0x10000 := by decide

theorem witness_RdnbSteps :
    full.cfg.wf ∧
    (min (0#16).toNat full.count = 0 ∧ { full with cop := .rdnbS 0#16 }.cop = .rdnbS 0#16) ∧
    (min (0xFFFF#16).toNat full.count ≠ 0 ∧ { full with cop := .rdnbS 0xFFFF#16 }.cop = .rdnbS 0xFFFF#16) ∧
    ({ full with cop := .rdnbD 3#16 3#16 2#16 }.cop = .rdnbD 3#16 3#16 2#16 ∧ full.ring.rd.toNat < full.cfg.n ∧
      full.ring.storage.get? full.ring.rd.toNat = some 0x61#8 ∧ 2#16 + 1#16 = 3#16) ∧
    ({ full with cop := .rdnbD 3#16 3#16 1#16 }.cop = .rdnbD 3#16 3#16 1#16 ∧ full.ring.rd.toNat < full.cfg.n ∧
      full.ring.storage.get? full.ring.rd.toNat = some 0x61#8 ∧ 1#16 + 1#16 ≠ 3#16) := by decide

theorem witness_ReadSteps :
    ({ full with cop := .readW 5#16 }.cop = .readW 5#16 ∧ full.ring.rd ≠ full.ring.wr) ∧
    (∀ b, Asked { empty with cop := .readW 5#16, answers := [b] } b { empty with cop := .readW 5#16, answers := [] }) ∧
    empty.ring.rd = empty.ring.wr ∧
    ({ full with cop := .readD 5#16 5#16 }.cop = .readD 5#16 5#16 ∧ (5#16 = 5#16 ∨ full.ring.rd = full.ring.wr)) ∧
    ({ empty with cop := .readD 5#16 2#16 }.cop = .readD 5#16 2#16 ∧ (2#16 = 5#16 ∨ empty.ring.rd = empty.ring.wr)) ∧
    ({ full with cop := .readD 5#16 4#16 }.cop = .readD 5#16 4#16 ∧ 4#16 ≠ 5#16 ∧ full.ring.rd ≠ full.ring.wr ∧
      full.ring.rd.toNat < full.cfg.n ∧ full.ring.storage.get? full.ring.rd.toNat = some 0x61#8) :=
  ⟨by decide, fun b => asked_listed { empty with cop := .readW 5#16 } b rfl, by decide, by decide, by decide,
    by decide⟩

theorem witness_ReadfSteps :
    { full with cop := .readfF 5#16 5#16 }.cop = .readfF 5#16 5#16 ∧
    ({ full with cop := .readfF 5#16 4#16 }.cop = .readfF 5#16 4#16 ∧ 4#16 ≠ 5#16) ∧
    ({ full with cop := .readfW 5#16 4#16 0#16 }.cop = .readfW 5#16 4#16 0#16 ∧ full.ring.rd ≠ full.ring.wr) ∧
    (∀ b, Asked { empty with cop := .readfW 5#16 4#16 0#16, answers := [b] } b
      { empty with cop := .readfW 5#16 4#16 0#16, answers := [] }) ∧
    empty.ring.rd = empty.ring.wr ∧
    ({ full with cop := .readfD 5#16 4#16 1#16 }.cop = .readfD 5#16 4#16 1#16 ∧
      ((4#16).toNat + (1#16).toNat = (5#16).toNat ∨ full.ring.rd = full.ring.wr)) ∧
    ({ full with cop := .readfD 5#16 3#16 1#16 }.cop = .readfD 5#16 3#16 1#16 ∧
      (3#16).toNat + (1#16).toNat ≠ (5#16).toNat ∧ full.ring.rd ≠ full.ring.wr ∧ full.ring.rd.toNat < full.cfg.n ∧
      full.ring.storage.get? full.ring.rd.toNat = some 0x61#8) :=
  ⟨by decide, by decide, by decide, fun b => asked_listed { empty with cop := .readfW 5#16 4#16 0#16 } b rfl,
    by decide, by decide, by decide⟩

/-- Each clause of `RDLINE`, with the counter one short of its limit where the limit does not stop it. -/
theorem witness_RdlineSteps :
    (full.cop = .idle ∧ 0#16 = 0#16) ∧
    ({ full with cop := .rdlineL 3#16 2#16 }.cop = .rdlineL 3#16 2#16 ∧ (2#16).toNat = (3#16).toNat - 1) ∧
    ({ full with cop := .rdlineL 3#16 1#16 }.cop = .rdlineL 3#16 1#16 ∧ (1#16).toNat ≠ (3#16).toNat - 1 ∧
      { full.ring with ovf := true }.ovf = true) ∧
    (∀ b, Asked { empty with cop := .rdlineL 3#16 1#16, answers := [b] } b
      { empty with cop := .rdlineL 3#16 1#16, answers := [] }) ∧
    (empty.ring.rd = empty.ring.wr ∧ empty.ring.ovf = false) ∧
    (full.ring.ovf = false ∧ full.ring.rd ≠ full.ring.wr ∧ full.ring.rd.toNat < full.cfg.n ∧
      full.ring.storage.get? full.ring.rd.toNat = some 0x61#8 ∧ 0x61#8 ≠ full.ch.delim ∧
      { full with ch := { full.ch with delim := 0x61#8 } }.ch.delim = 0x61#8) :=
  ⟨by decide, by decide, by decide, fun b => asked_listed { empty with cop := .rdlineL 3#16 1#16 } b rfl,
    by decide, by decide⟩

/-- The flag set; the nearest delimiter at distance 1 with none before it; no delimiter. -/
theorem witness_PeeklnAnswersTheNearestDelimiter :
    (full.cfg.wf ∧ RingInv full ∧ full.cop = .idle) ∧ { full.ring with ovf := true }.ovf = true ∧
    (full.ring.ovf = false ∧ 1 < full.count ∧ full.slotByte 1 = some full.ch.delim ∧
      ∀ j, j < 1 → full.slotByte j ≠ some full.ch.delim) ∧
    (empty.ring.ovf = false ∧ ∀ j, j < empty.count → empty.slotByte j ≠ some empty.ch.delim) :=
  ⟨⟨by decide, ringInv_full, by decide⟩, by decide, by decide, by decide⟩

theorem witness_ClearEmptiesTheRing : full.cop = .idle := by decide

theorem witness_ClearThenCountAndIsovfAnswerZero : full.cfg.wf ∧ ∃ t, exec .clear full = .next t := ⟨by decide, _, rfl⟩

theorem witness_RdnbDeliversWhatIsStored :
    Inv (running full [.cmdC (encode (.rdnb 2#16))]) ∧ full.cop = .idle := ⟨inv_full _, by decide⟩

theorem witness_ReadDrainsOneBatch :
    Inv (running full [.cmdC (encode (.read 10#16))]) ∧ full.cop = .idle ∧ full.count ≠ 0 :=
  ⟨inv_full _, by decide, by decide⟩

theorem peekln_line (l : List Input) : exec .peekln (running line l) =
    .next { running line l with res := resultWord .ok (BitVec.ofNat 16 (1 + 1)) } := by
  rw [exec, execPeekln_next]
  refine ⟨rfl, .inr ⟨rfl, 1 + 1, ?_, rfl⟩⟩
  exact scanFrom_found (s := running line l) (ringInv_congr (s := line) rfl rfl ringInv_line) (e := 1)
    (show line.slotByte 1 = some line.ch.delim by decide) _ 0 (Nat.zero_le 1) (show 1 < 0 + line.count by decide)
    (show 0 + line.count ≤ line.count by decide)
    (show ∀ j, 0 ≤ j → j < 1 → line.slotByte j ≠ some line.ch.delim by decide)

/-- An event before `RDLINE` and one during it. -/
def busyLine (size : Word) : List Input :=
  [.cmdP (encode (.push 0x78#8))] ++ .cmdC (encode (.rdline size)) :: [.stepC, .cmdP (encode .txev)]

/-- A buffer that just holds the line and the terminator, and one that is a byte too small; the second and last turn
that port C needs comes after the schedule's end; no `PUSH` is rejected. -/
theorem witness_PeeklnThenRdlineDeliversTheLine :
    (∀ size : Word, Inv (running line (busyLine size))) ∧ line.cop = .idle ∧ line.ring.ovf = false ∧
    1 < line.count ∧ (∀ l, exec .peekln (running line l) =
      .next { running line l with res := resultWord .ok (BitVec.ofNat 16 (1 + 1)) }) ∧
    (∀ w, .cmdC w ∉ [.cmdP (encode (.push 0x78#8))] ++ [Input.stepC, .cmdP (encode .txev)]) ∧
    (1 + 1 ≤ (3#16).toNat - 1 ∧ 1 + 1 ≤ [Input.stepC, .cmdP (encode .txev)].count .stepC + 1) ∧
    (1 ≤ (2#16).toNat ∧ (2#16).toNat - 1 < 1 + 1 ∧
      (2#16).toNat ≤ [Input.stepC, .cmdP (encode .txev)].count .stepC + 1) ∧
    (after (steps ((busyLine 3#16).length + 1) (running line (busyLine 3#16)))).map (·.ring.ovf) = some false :=
  ⟨fun _ => inv_line _, by decide, by decide, by decide, peekln_line, by simp, by decide, by decide, by decide⟩

theorem witness_StartSteps :
    (full.cop = .idle ∧ 0x10000 < (0xFFFF#16).toNat + (2#16).toNat) ∧
    ({ sending with cop := .startS0 0#16 1#16 }.cop = .startS0 0#16 1#16 ∧ sending.tx.fin = false) ∧
    ({ full with cop := .startS0 0#16 0#16 }.cop = .startS0 0#16 0#16 ∧ full.tx.fin = true ∧ 0#16 = 0#16) ∧
    (full.tx.fin = true ∧ 1#16 ≠ 0#16 ∧ { full.ch with mode := .nonblocking }.mode = .nonblocking) ∧
    (full.tx.fin = true ∧ 1#16 ≠ 0#16 ∧ full.ch.mode = .blocking) ∧
    (waiting.cop = .startS1 0x0100#16 3#16 ∧ waiting.tx.finish.fin = true) ∧
    (waiting.cop = .startS1 0x0100#16 3#16 ∧ waiting.tx.fin = false) ∧
    (∀ b, Asked { waiting with answers := [b] } b { waiting with answers := [] }) :=
  ⟨by decide, by decide, by decide, by decide, by decide, by decide, by decide,
    fun b => asked_listed waiting b rfl⟩

theorem witness_TxevPushesOneBurst :
    (sending.cfg.wf ∧ sending.tx.sent.toNat ≤ sending.tx.len.toNat ∧
      sending.tx.base.toNat + sending.tx.len.toNat ≤ 0x10000 ∧ sending.tx.fin = false ∧
      2 = min sending.cfg.k (sending.tx.len.toNat - sending.tx.sent.toNat)) ∧
    (empty.tx.sent.toNat ≤ empty.tx.len.toNat ∧ empty.tx.base.toNat + empty.tx.len.toNat ≤ 0x10000 ∧
      empty.tx.fin = true) := by decide

theorem witness_IsfinAnswersTheFlag : sending.cop = .idle := by decide
theorem witness_ClrtxAbandonsTheTransmission : sending.cop = .idle := by decide
theorem witness_SetmodeWritesTheMode : sending.cop = .idle := by decide
theorem witness_SetdelimWritesTheDelimiter : sending.cop = .idle := by decide

/-- A transmission of three bytes and one event, the least number that finishes it with `K = 2`, in either mode. -/
theorem witness_TransmissionNeedsThatManyEvents : ∀ m : Mode,
    let e := 1
    let s := { running empty (.cmdC (encode (.start 0x0100#16 3#16)) :: .stepC ::
      List.replicate e (.cmdP (encode .txev))) with ch := { mode := m, delim := 0x0A#8 } }
    s.cfg.wf ∧ s.cop = .idle ∧ s.tx.fin = true ∧ s.ch.mode = m ∧ 3#16 ≠ 0#16 ∧
      (0x0100#16).toNat + (3#16).toNat ≤ 0x10000 ∧ s.schedule = .cmdC (encode (.start 0x0100#16 3#16)) :: .stepC ::
        List.replicate e (.cmdP (encode .txev)) :=
  fun _ => ⟨show empty.cfg.wf by decide, rfl, rfl, rfl, by decide, by decide, rfl⟩

/-- Each way `tx.fin` changes happens. -/
theorem witness_OnlyTheseOperationsChangeFin :
    ((after (exec (.start 0x0100#16 3#16) { empty with cop := .startS0 0x0100#16 3#16 })).map (·.tx.fin) = some false ∧
      empty.tx.fin = true) ∧
    ((after (exec .txev sending)).map (·.tx.fin) = some true ∧ (after (exec .clrtx sending)).map (·.tx.fin) = some true ∧
      (after (exec (.start 0x0100#16 3#16) { waiting with answers := [true] })).map (·.tx.fin) = some true ∧
      sending.tx.fin = false) := by decide

/-- Each element changes by each of its writers that the clause names. -/
theorem witness_MutationRights :
    ((after (exec (.push 0x44#8) line)).map (fun t => (t.ring.storage.get? 1, t.ring.wr)) = some (some 0x44#8, 2#16) ∧
      line.ring.storage.get? 1 ≠ some 0x44#8 ∧ line.ring.wr ≠ 2#16) ∧
    ((after (exec (.push 0x44#8) full)).map (·.ring.ovf) = some true ∧ full.ring.ovf = false) ∧
    ((after (exec .clear { full with ring := { full.ring with ovf := true } })).map
      (fun t => (t.ring.ovf, t.ring.wr, t.ring.rd)) = some (false, 0#16, 0#16) ∧ full.ring.rd ≠ 0#16) ∧
    (∀ p ∈ [(Instr.rdnb 5#16, Cop.rdnbD 5#16 3#16 0#16), (.read 5#16, .readD 5#16 0#16),
        (.readf 5#16, .readfD 5#16 0#16 0#16), (.rdline 5#16, .rdlineL 5#16 0#16)],
      (after (exec p.1 { full with cop := p.2 })).map (·.ring.rd) = some 0#16) ∧
    ((after (exec (.start 0x0100#16 3#16) { empty with cop := .startS0 0x0100#16 3#16 })).map (·.tx) =
      some (Tx.arm 0x0100#16 3#16) ∧ empty.tx ≠ Tx.arm 0x0100#16 3#16) ∧
    ((after (exec .txev sending)).map (·.tx.sent) = some 3#16 ∧ sending.tx.sent ≠ 3#16) ∧
    ((after (exec (.start 0x0100#16 3#16) { waiting with answers := [true] })).map (·.tx.fin) = some true ∧
      waiting.tx.fin = false) ∧
    ((after (exec (.setmode .nonblocking) empty)).map (·.ch.mode) = some .nonblocking ∧ empty.ch.mode = .blocking) ∧
    ((after (exec (.setdelim 0x0D#8) empty)).map (·.ch.delim) = some 0x0D#8 ∧ empty.ch.delim = 0x0A#8) ∧
    ((after (exec (.rdnb 1#16) empty)).map (·.cop) = some (.rdnbS 1#16) ∧ empty.cop = .idle) := by decide

theorem witness_EventLeavesTheMainlineUntouched :
    ((Instr.push 0x44#8).port = .P ∧ (after (exec (.push 0x44#8) waiting)).isSome = true) ∧
    (Instr.txev.port = .P ∧ (after (exec .txev waiting)).isSome = true) := by decide

theorem witness_OverflowIsSticky : ∀ i ∈ [Instr.push 0x44#8, .clear, .isovf], (after (exec i full)).isSome = true := by
  decide

/-- An operation ends with each status. -/
theorem witness_StatusTableIsComplete :
    (after (exec (.start 0#16 1#16) { sending with cop := .startS0 0#16 1#16 })).map (fun t => (t.cop, t.res)) =
      some (.idle, 0x010000#24) ∧
    (after (exec .peekln (small [] 0#16 0#16 true))).map (fun t => (t.cop, t.res)) = some (.idle, 0x020000#24) ∧
    (after (exec (.read 1#16) { empty with cop := .readW 1#16, answers := [true] })).map (fun t => (t.cop, t.res)) =
      some (.idle, 0x030000#24) ∧
    (after (exec (.rdline 2#16) { small [] 0#16 0#16 true with cop := .rdlineL 2#16 0#16 })).map
      (fun t => (t.cop, t.res)) = some (.idle, 0x040000#24) ∧
    (after (exec (.rdline 0#16) full)).map (fun t => (t.cop, t.res)) = some (.idle, 0xFF0000#24) ∧
    (after (exec .count full)).map (fun t => (t.cop, t.res)) = some (.idle, 0x000003#24) ∧
    (after (exec .isovf (small [] 0#16 0#16 true))).map (fun t => (t.cop, t.res)) = some (.idle, 0x000001#24) := by
  decide

theorem witness_PredicateAskedOnlyWhileWaiting :
    (after (exec (.read 1#16) { empty with cop := .readW 1#16, answers := [false, true] })).map (·.answers) =
      some [true] ∧
    (after (exec (.read 1#16) { full with cop := .readW 1#16, answers := [true] })).map (·.answers) = some [true] ∧
    (after (exec (.rdline 2#16) { empty with cop := .rdlineL 2#16 1#16, answers := [true] })).map
      (fun t => (t.answers, t.res)) = some ([true], 0x000001#24) ∧
    ((Instr.read 1#16).port = .C ∧
      (after (exec (.read 1#16) { empty with cop := .readW 1#16, answers := [true] })).map
        (fun t => (t.cop, resStatus t.res)) = some (.idle, Status.timeout.code)) := by decide

/-- No predicate, nothing scheduled, and each blocking operation at its wait. -/
theorem witness_BlockedOperationWaitsForEver :
    let s := { empty with cfg := { empty.cfg with hasTimeout := false } }
    (s.schedule = [] ∧ s.cfg.hasTimeout = false ∧ s.ring.rd = s.ring.wr ∧ s.ring.ovf = false) ∧
    (∃ max, { s with cop := .readW 0#16 }.cop = .readW max) ∧
    (∃ max total cnt, { s with cop := .readfW 1#16 0#16 0#16 }.cop = .readfW max total cnt) ∧
    (∃ size cnt, { s with cop := .rdlineL 2#16 0#16 }.cop = .rdlineL size cnt ∧ cnt.toNat ≠ size.toNat - 1) ∧
    ((∃ a n, waiting.cop = .startS1 a n) ∧ waiting.tx.fin = false) :=
  ⟨by decide, ⟨_, rfl⟩, ⟨_, _, _, rfl⟩, ⟨_, _, rfl, by decide⟩, ⟨_, _, rfl⟩, by decide⟩

theorem witness_PushAndTxevCommute :
    (∃ t, exec (.push 0x44#8) sending = .next t) ∧ (∃ u, exec .txev sending = .next u) := ⟨⟨_, rfl⟩, ⟨_, rfl⟩⟩

theorem witness_PushDoesNotDisturbTheDrainedByte :
    full.cfg.wf ∧ RingInv full ∧ full.count ≠ 0 ∧ ∃ u, exec (.push 0x44#8) full = .next u :=
  ⟨by decide, ringInv_full, by decide, _, rfl⟩

theorem witness_QueriesAreIdempotent :
    ∀ i ∈ [Instr.count, .isovf, .isfin, .peekln], (after (exec i full)).isSome = true := by decide

theorem witness_EachStepKeepsFifoOrder :
    Inv (running full [.cmdP (encode (.push 0x44#8))]) ∧
    (∃ t, step (running full [.cmdP (encode (.push 0x44#8))]) = .next t) ∧
    ∀ rest, (running full [.cmdP (encode (.push 0x44#8))]).schedule ≠ .cmdC (encode .clear) :: rest :=
  ⟨inv_full _, ⟨_, rfl⟩, fun _ h => by cases h⟩

/-- Three steps: an accepted `PUSH`, `RDNB` taken up, and its snapshot. -/
theorem witness_RunDeliversThePushedBytesInOrder :
    let s := running line [.cmdP (encode (.push 0x44#8)), .cmdC (encode (.rdnb 2#16))]
    Inv s ∧ (∃ t, steps 3 s = .next t) ∧ .cmdC (encode .clear) ∉ s.schedule :=
  ⟨inv_line _, ⟨_, rfl⟩, by decide⟩

theorem witness_StreamsOnlyGrow :
    ∃ t, step { line with cop := .readD 1#16 0#16 } = .next t := ⟨_, rfl⟩

theorem witness_TxmemAndParametersAreNotTheBlocks :
    (∃ t, step (running full [.envWrite 0x0100#16 0x00#8]) = .next t) ∧ full.txmem.wf = true ∧
    (∃ t, step (running full [.stepC]) = .next t) := ⟨⟨_, rfl⟩, by decide, ⟨_, rfl⟩⟩

/-- The least and the greatest parameters. -/
theorem witness_InvariantHoldsAtReset :
    (Params.mk 2 1 false).wf ∧ (Params.mk 65536 65535 true).wf := by decide

/-- The invariant holds in a state of each kind of operation in progress, and a step is taken from it. -/
theorem witness_EveryStepKeepsTheInvariant :
    (Inv full ∧ ∃ t, step full = .next t) ∧
    (Inv { full with cop := .rdnbD 3#16 3#16 0#16 } ∧ ∃ t, step { full with cop := .rdnbD 3#16 3#16 0#16 } = .next t) ∧
    (Inv { full with cop := .readfD 5#16 2#16 1#16 } ∧
      ∃ t, step { full with cop := .readfD 5#16 2#16 1#16 } = .next t) ∧
    Inv { waiting with answers := [true] } ∧ ∃ t, step { waiting with answers := [true] } = .next t :=
  ⟨⟨inv_full [], _, rfl⟩,
    ⟨⟨by decide, ringInv_congr (s := full) rfl rfl ringInv_full, txInv_idle, by simp only [CopInv]; decide, by decide⟩,
      _, rfl⟩,
    ⟨⟨by decide, ringInv_congr (s := full) rfl rfl ringInv_full, txInv_idle, by simp only [CopInv]; decide, by decide⟩,
      _, rfl⟩,
    ⟨by decide, ringInv_congr (s := empty) rfl rfl ringInv_empty, txInv_sending, ⟨rfl, rfl, by decide⟩, by decide⟩,
    _, rfl⟩

/-- The refusal's case too: a command at a busy port C. -/
theorem witness_NoStepFaults :
    Inv full ∧ Inv (running waiting [.cmdC 0x1000000000#40]) ∧
    step (running waiting [.cmdC 0x1000000000#40]) = .refused .portCBusy :=
  ⟨inv_full [],
    ⟨by decide, ringInv_congr (s := empty) rfl rfl ringInv_empty, txInv_sending, ⟨rfl, rfl, by decide⟩, by decide⟩, rfl⟩

end Sys2Proof.Tests
end

section
/-! What one step of an operation does to each part of the state (10_state R33): to the ring, to the sequencer, to the
channel registers, to `cop`, and what it never changes. Every fact comes from the one case analysis `exec_cases`. -/

namespace Sys2Proof.Machine

variable {i : Instr} {s t : State}

/-! ## The ring (R21 to R24) -/

/-- The next step of `i` in `s` is one of the four that drain a byte: R132 at the labels of R134 to R137. -/
def DrainStep (i : Instr) (s : State) : Prop :=
  (∃ max n cnt, i = .rdnb max ∧ s.cop = .rdnbD max n cnt) ∨ (∃ max cnt, i = .read max ∧ s.cop = .readD max cnt) ∨
  (∃ max total cnt, i = .readf max ∧ s.cop = .readfD max total cnt) ∨
  (∃ size cnt, i = .rdline size ∧ s.cop = .rdlineL size cnt)

/-- The writers of the ring, each with what it writes. -/
inductive RingEffect (i : Instr) (s t : State) : Prop
  | kept : t.ring = s.ring → RingEffect i s t
  | rejected (b : Byte) : i = .push b → nextIndex s.cfg.n s.ring.wr = s.ring.rd →
      t.ring = { s.ring with storage := s.ring.storage.set s.ring.wr.toNat b, ovf := true } → RingEffect i s t
  | accepted (b : Byte) : i = .push b → nextIndex s.cfg.n s.ring.wr ≠ s.ring.rd →
      t.ring = { s.ring with
        storage := s.ring.storage.set s.ring.wr.toNat b, wr := nextIndex s.cfg.n s.ring.wr } → RingEffect i s t
  | drained (b : Byte) (rest : List Byte) : DrainStep i s → s.oldest b →
      t.ring = { s.ring with rd := nextIndex s.cfg.n s.ring.rd } → t.out = s.out ++ b :: rest → RingEffect i s t
  | cleared : i = .clear → t.ring = s.ring.cleared → RingEffect i s t

theorem exec_ringEffect (h : exec i s = .next t) : RingEffect i s t := by
  cases exec_cases h
  case pushReject b _ hfull => exact .rejected b rfl hfull rfl
  case pushAccept b _ hfree => exact .accepted b rfl hfree rfl
  case clear => exact .cleared rfl rfl
  case rdnbLast max n cnt b hc hb _ => exact .drained b [] (.inl ⟨max, n, cnt, rfl, hc⟩) hb rfl rfl
  case rdnbMore max n cnt b hc hb _ => exact .drained b [] (.inl ⟨max, n, cnt, rfl, hc⟩) hb rfl rfl
  case readDrain max cnt b hc _ _ hb => exact .drained b [] (.inr (.inl ⟨max, cnt, rfl, hc⟩)) hb rfl rfl
  case readfDrain max total cnt b hc _ _ hb =>
    exact .drained b [] (.inr (.inr (.inl ⟨max, total, cnt, rfl, hc⟩))) hb rfl rfl
  case rdlineByte size cnt b hc _ _ _ hb _ => exact .drained b [] (.inr (.inr (.inr ⟨size, cnt, rfl, hc⟩))) hb rfl rfl
  case rdlineDelim size cnt hc _ _ _ hb =>
    exact .drained s.ch.delim [Config.terminator] (.inr (.inr (.inr ⟨size, cnt, rfl, hc⟩))) hb rfl
      (List.append_assoc _ _ _)
  case readTimeout | readWait | readfTimeout | readfWait | rdlineTimeout | rdlineWait | startTimeout | startWait =>
    obtain ⟨-, hring, -⟩ := asked_fields ‹Asked s _ _›
    exact .kept hring
  all_goals exact .kept rfl

theorem storage_changes_only_by_push (h : exec i s = .next t) (a : Nat)
    (hne : t.ring.storage.get? a ≠ s.ring.storage.get? a) : (∃ b, i = .push b) ∧ a = s.ring.wr.toNat := by
  have slot (b : Byte) (ht : t.ring.storage = s.ring.storage.set s.ring.wr.toNat b) : a = s.ring.wr.toNat := by
    by_contra ha
    exact hne (by rw [ht, Memory.get?_set_ne ha])
  cases exec_ringEffect h with
  | kept ht => simp [ht] at hne
  | rejected b hi _ ht => exact ⟨⟨b, hi⟩, slot b (by rw [ht])⟩
  | accepted b hi _ ht => exact ⟨⟨b, hi⟩, slot b (by rw [ht])⟩
  | drained b rest _ _ ht _ => simp [ht] at hne
  | cleared _ ht => simp [ht] at hne

theorem wr_changes_only_by_push_or_clear (h : exec i s = .next t) (hne : t.ring.wr ≠ s.ring.wr) :
    (∃ b, i = .push b) ∨ i = .clear := by
  cases exec_ringEffect h with
  | kept ht => simp [ht] at hne
  | rejected b hi _ _ => exact .inl ⟨b, hi⟩
  | accepted b hi _ _ => exact .inl ⟨b, hi⟩
  | drained b rest _ _ ht _ => simp [ht] at hne
  | cleared hi _ => exact .inr hi

theorem ovf_set_only_by_push (h : exec i s = .next t) (hs : s.ring.ovf = false) (ht : t.ring.ovf = true) :
    ∃ b, i = .push b := by
  cases exec_ringEffect h with
  | kept hr => simp [hr, hs] at ht
  | rejected b hi _ _ => exact ⟨b, hi⟩
  | accepted b hi _ _ => exact ⟨b, hi⟩
  | drained b rest _ _ hr _ => simp [hr, hs] at ht
  | cleared _ hr => simp [hr] at ht

theorem ovf_cleared_only_by_clear (h : exec i s = .next t) (hs : s.ring.ovf = true) (ht : t.ring.ovf = false) :
    i = .clear := by
  cases exec_ringEffect h with
  | kept hr => simp [hr, hs] at ht
  | rejected b _ _ hr => simp [hr] at ht
  | accepted b _ _ hr => simp [hr, hs] at ht
  | drained b rest _ _ hr _ => simp [hr, hs] at ht
  | cleared hi _ => exact hi

theorem rd_changes_only_by_drain_or_clear (h : exec i s = .next t) (hne : t.ring.rd ≠ s.ring.rd) :
    (DrainStep i s ∧ t.ring.rd = nextIndex s.cfg.n s.ring.rd ∧
      ∃ b rest, s.ring.storage.get? s.ring.rd.toNat = some b ∧ t.out = s.out ++ b :: rest) ∨ i = .clear := by
  cases exec_ringEffect h with
  | kept ht => simp [ht] at hne
  | rejected b _ _ ht => simp [ht] at hne
  | accepted b _ _ ht => simp [ht] at hne
  | drained b rest hd hb ht hout => exact .inl ⟨hd, by rw [ht], b, rest, hb.2, hout⟩
  | cleared hi _ => exact .inr hi

/-! ## The sequencer (R26 to R29) -/

/-- The writers of the sequencer's registers, each with what it writes. -/
inductive TxEffect (i : Instr) (s t : State) : Prop
  | kept : t.tx = s.tx → TxEffect i s t
  | burst : i = .txev → s.tx.fin = false → t.tx = s.tx.advance s.burst → TxEffect i s t
  | armed (a n : Word) : i = .start a n → s.cop = .startS0 a n → s.tx.fin = true → n ≠ 0#16 →
      t.tx = Tx.arm a n → TxEffect i s t
  | cancelled : i = .clrtx → t.tx = s.tx.finish → TxEffect i s t
  | abandoned (a n : Word) (s' : State) : i = .start a n → s.cop = .startS1 a n → Asked s true s' → t.cop = .idle →
      t.res = resultWord .timeout s.tx.sent → t.tx = s.tx.finish → TxEffect i s t

theorem exec_txEffect (h : exec i s = .next t) : TxEffect i s t := by
  cases exec_cases h
  case txevBurst bs hfin _ => exact .burst rfl hfin rfl
  case startArm a n hc hfin hn _ => exact .armed a n rfl hc hfin hn rfl
  case startArmWait a n hc hfin hn _ => exact .armed a n rfl hc hfin hn rfl
  case clrtx => exact .cancelled rfl rfl
  case startTimeout a n s' hc _ ha =>
    obtain ⟨-, -, htx, -⟩ := asked_fields ha
    exact .abandoned a n s' rfl hc ha rfl (by simp [htx]) (by simp [htx])
  case readTimeout | readWait | readfTimeout | readfWait | rdlineTimeout | rdlineWait | startWait =>
    obtain ⟨-, -, htx, -⟩ := asked_fields ‹Asked s _ _›
    exact .kept htx
  all_goals exact .kept rfl

theorem base_len_change_only_by_start (h : exec i s = .next t)
    (hne : t.tx.base ≠ s.tx.base ∨ t.tx.len ≠ s.tx.len) :
    ∃ a n, i = .start a n ∧ s.cop = .startS0 a n ∧ s.tx.fin = true ∧ n ≠ 0#16 ∧ t.tx.base = a ∧ t.tx.len = n := by
  cases exec_txEffect h with
  | kept ht => simp [ht] at hne
  | burst _ _ ht => simp [ht] at hne
  | armed a n hi hc hfin hn ht => exact ⟨a, n, hi, hc, hfin, hn, by simp [ht], by simp [ht]⟩
  | cancelled _ ht => simp [ht] at hne
  | abandoned a n s' _ _ _ _ _ ht => simp [ht] at hne

theorem sent_changes_only_by_txev_or_start (h : exec i s = .next t) (hne : t.tx.sent ≠ s.tx.sent) :
    (i = .txev ∧ s.tx.fin = false ∧ t.tx.sent = BitVec.ofNat 16 (s.tx.sent.toNat + s.burst)) ∨
    (∃ a n, i = .start a n ∧ s.cop = .startS0 a n ∧ s.tx.fin = true ∧ n ≠ 0#16 ∧ t.tx.sent = 1#16) := by
  cases exec_txEffect h with
  | kept ht => simp [ht] at hne
  | burst hi hfin ht => exact .inl ⟨hi, hfin, by simp [ht]⟩
  | armed a n hi hc hfin hn ht => exact .inr ⟨a, n, hi, hc, hfin, hn, by simp [ht]⟩
  | cancelled _ ht => simp [ht] at hne
  | abandoned a n s' _ _ _ _ _ ht => simp [ht] at hne

theorem fin_cleared_only_by_start (h : exec i s = .next t) (hs : s.tx.fin = true) (ht : t.tx.fin = false) :
    ∃ a n, i = .start a n ∧ s.cop = .startS0 a n ∧ n ≠ 0#16 := by
  cases exec_txEffect h with
  | kept hr => simp [hr, hs] at ht
  | burst _ hfin _ => simp [hs] at hfin
  | armed a n hi hc _ hn _ => exact ⟨a, n, hi, hc, hn⟩
  | cancelled _ hr => simp [hr] at ht
  | abandoned a n s' _ _ _ _ _ hr => simp [hr] at ht

theorem fin_set_only_by_txev_clrtx_or_timeout (h : exec i s = .next t) (hs : s.tx.fin = false)
    (ht : t.tx.fin = true) : i = .txev ∨ i = .clrtx ∨
      ∃ a n s', i = .start a n ∧ s.cop = .startS1 a n ∧ Asked s true s' ∧ t.cop = .idle ∧
        t.res = resultWord .timeout s.tx.sent := by
  cases exec_txEffect h with
  | kept hr => simp [hr, hs] at ht
  | burst hi _ _ => exact .inl hi
  | armed a n _ _ hfin _ _ => simp [hs] at hfin
  | cancelled hi _ => exact .inr (.inl hi)
  | abandoned a n s' hi hc ha hidle hres _ => exact .inr (.inr ⟨a, n, s', hi, hc, ha, hidle, hres⟩)

/-! ## The channel registers (R31, R32) -/

/-- The writers of the channel registers, each with what it writes. -/
inductive ChanEffect (i : Instr) (s t : State) : Prop
  | kept : t.ch = s.ch → ChanEffect i s t
  | mode (m : Mode) : i = .setmode m → t.ch = { s.ch with mode := m } → ChanEffect i s t
  | delim (b : Byte) : i = .setdelim b → t.ch = { s.ch with delim := b } → ChanEffect i s t

theorem exec_chanEffect (h : exec i s = .next t) : ChanEffect i s t := by
  cases exec_cases h
  case setmode m _ => exact .mode m rfl rfl
  case setdelim b _ => exact .delim b rfl rfl
  case readTimeout | readWait | readfTimeout | readfWait | rdlineTimeout | rdlineWait | startTimeout | startWait =>
    obtain ⟨-, -, -, hch, -⟩ := asked_fields ‹Asked s _ _›
    exact .kept hch
  all_goals exact .kept rfl

theorem mode_changes_only_by_setmode (h : exec i s = .next t) (hne : t.ch.mode ≠ s.ch.mode) : ∃ m, i = .setmode m := by
  cases exec_chanEffect h with
  | kept ht => simp [ht] at hne
  | mode m hi _ => exact ⟨m, hi⟩
  | delim b _ ht => simp [ht] at hne

theorem delim_changes_only_by_setdelim (h : exec i s = .next t) (hne : t.ch.delim ≠ s.ch.delim) :
    ∃ b, i = .setdelim b := by
  cases exec_chanEffect h with
  | kept ht => simp [ht] at hne
  | mode m _ ht => simp [ht] at hne
  | delim b hi _ => exact ⟨b, hi⟩

/-! ## The port-C context (R34), and what no operation writes (R39, R60) -/

theorem exec_portP_cop (h : exec i s = .next t) (hp : i.port = .P) : t.cop = s.cop := by
  cases exec_cases h
  case pushReject | pushAccept | txevIdle | txevBurst => rfl
  all_goals cases hp

theorem cop_changes_only_by_portC (h : exec i s = .next t) (hne : t.cop ≠ s.cop) : i.port = .C :=
  (port_cases i).resolve_left fun hp => hne (exec_portP_cop h hp)

theorem exec_keeps_cfg_txmem_schedule (h : exec i s = .next t) :
    t.cfg = s.cfg ∧ t.txmem = s.txmem ∧ t.schedule = s.schedule := by
  cases exec_cases h
  case readTimeout | readWait | readfTimeout | readfWait | rdlineTimeout | rdlineWait | startTimeout | startWait =>
    obtain ⟨hcfg, -, -, -, -, -, -, -, htxmem, hschedule⟩ := asked_fields ‹Asked s _ _›
    exact ⟨hcfg, htxmem, hschedule⟩
  all_goals exact ⟨rfl, rfl, rfl⟩

/-- Settles O35: the rows of R33's table, one lemma each. -/
theorem mutationRights : Obligations.MutationRights := fun _ _ _ h =>
  ⟨storage_changes_only_by_push h, wr_changes_only_by_push_or_clear h, ovf_set_only_by_push h,
    ovf_cleared_only_by_clear h, rd_changes_only_by_drain_or_clear h, base_len_change_only_by_start h,
    sent_changes_only_by_txev_or_start h, fin_cleared_only_by_start h, fin_set_only_by_txev_clrtx_or_timeout h,
    mode_changes_only_by_setmode h, delim_changes_only_by_setdelim h, cop_changes_only_by_portC h,
    exec_keeps_cfg_txmem_schedule h⟩

end Sys2Proof.Machine
end

section
/-! Which words decode (30_encoding R91 to R93): a row of the opcode map gives an operation exactly when it selects the
word. The rows are taken in the order of `rows`, which is that of R93. -/

namespace Sys2Proof

/-- A row reads only operations of its own opcode. -/
theorem opcode_read {r : Row} (hr : r ∈ rows) (w : Cmd) : (r.read w).opcode = r.op := by
  revert r
  simp [rows, Instr.opcode]

/-- A row of the map that selects a word decodes it. -/
theorem decode_selected {r : Row} (hr : r ∈ rows) {w : Cmd} (hw : w &&& r.format.mask = r.matchWord) :
    decode w = .ok (r.read w) := by
  obtain ⟨hop, -, -⟩ := (row_select_iff r w).1 hw
  rw [decode_row hr hop, if_pos hw]

/-- A word decodes to an operation of row `k` exactly when the row selects it and reads that operation. -/
theorem decode_eq_ok_iff (k : Nat) {w : Cmd} {i : Instr} (hk : k < rows.length) (hi : i.opcode = rows[k].op) :
    decode w = .ok i ↔ w &&& rows[k].format.mask = rows[k].matchWord ∧ i = rows[k].read w := by
  have hr : rows[k] ∈ rows := List.getElem_mem hk
  constructor
  · intro h
    obtain ⟨r, hmem, hop, -, hread⟩ := decode_ok h
    have hw : opField w = rows[k].op := by rw [hop, ← opcode_read hmem w, hread, hi]
    rw [decode_row hr hw] at h
    split at h
    · injection h with h
      exact ⟨‹_›, h.symm⟩
    · cases h
  · rintro ⟨hw, rfl⟩
    exact decode_selected hr hw

/-- A word decodes exactly when some row selects it. -/
theorem decodes_iff_selected (w : Cmd) :
    (∃ i, decode w = .ok i) ↔ ∃ r ∈ rows, w &&& r.format.mask = r.matchWord := by
  constructor
  · rintro ⟨i, h⟩
    obtain ⟨r, hr, -, hw, -⟩ := decode_ok h
    exact ⟨r, hr, hw⟩
  · rintro ⟨r, hr, hw⟩
    exact ⟨_, decode_selected hr hw⟩

/-- A row without operands is known by its word alone. -/
theorem decode_eq_ok_iff_selected (k : Nat) {w : Cmd} {i : Instr} (hk : k < rows.length)
    (hi : i.opcode = rows[k].op) (hread : i = rows[k].read w) :
    decode w = .ok i ↔ w &&& rows[k].format.mask = rows[k].matchWord :=
  (decode_eq_ok_iff k hk hi).trans (and_iff_left hread)

/-- A row with operands gives the operation with the operands it reads from the word. -/
theorem decode_eq_ok_iff_operands (k : Nat) {w : Cmd} {i : Instr} {P : Prop} (hk : k < rows.length)
    (hi : i.opcode = rows[k].op) (hread : (i = rows[k].read w) = P) :
    decode w = .ok i ↔ w &&& rows[k].format.mask = rows[k].matchWord ∧ P :=
  hread ▸ decode_eq_ok_iff k hk hi

/-- The operations of port P are the first two rows (R93, R94). -/
theorem port_P_iff (i : Instr) : i.port = .P ↔ (∃ b, i = .push b) ∨ i = .txev := by
  cases i <;> simp [Instr.port]

/-- Settles O1: clause by clause the rows of the map, in their order. -/
theorem wordSelectsRowByMaskAndMatch : Obligations.WordSelectsRowByMaskAndMatch := by
  refine ⟨fun w => ⟨fun b => ?push, ?txev, ?count, ?isovf, fun max => ?rdnb, fun max => ?read, fun max => ?readf,
    fun size => ?rdline, ?peekln, ?clear, fun a n => ?start, ?isfin, ?clrtx, fun m => ?setmode, fun b => ?setdelim⟩,
    port_P_iff⟩
  case push => exact decode_eq_ok_iff_operands 0 (by decide) rfl (Instr.push.injEq ..)
  case txev => exact decode_eq_ok_iff_selected 1 (by decide) rfl rfl
  case count => exact decode_eq_ok_iff_selected 2 (by decide) rfl rfl
  case isovf => exact decode_eq_ok_iff_selected 3 (by decide) rfl rfl
  case rdnb => exact decode_eq_ok_iff_operands 4 (by decide) rfl (Instr.rdnb.injEq ..)
  case read => exact decode_eq_ok_iff_operands 5 (by decide) rfl (Instr.read.injEq ..)
  case readf => exact decode_eq_ok_iff_operands 6 (by decide) rfl (Instr.readf.injEq ..)
  case rdline => exact decode_eq_ok_iff_operands 7 (by decide) rfl (Instr.rdline.injEq ..)
  case peekln => exact decode_eq_ok_iff_selected 8 (by decide) rfl rfl
  case clear => exact decode_eq_ok_iff_selected 9 (by decide) rfl rfl
  case start => exact decode_eq_ok_iff_operands 10 (by decide) rfl (Instr.start.injEq ..)
  case isfin => exact decode_eq_ok_iff_selected 11 (by decide) rfl rfl
  case clrtx => exact decode_eq_ok_iff_selected 12 (by decide) rfl rfl
  case setmode => exact decode_eq_ok_iff_operands 13 (by decide) rfl (Instr.setmode.injEq ..)
  case setdelim => exact decode_eq_ok_iff_operands 14 (by decide) rfl (Instr.setdelim.injEq ..)

end Sys2Proof
end

section
/-! What a command word does at each port (30_encoding R94, R95), and the illegal commands. -/

namespace Sys2Proof.Machine

variable {s : State} {w : Cmd} {i : Instr}

/-- An illegal command at a free port C leaves `RES = (ILLEGAL, 0)` and nothing else changed. -/
theorem complete_illegal_idle (hc : s.cop = .idle) : complete s .illegal 0#16 = { s with res := 0xFF0000#24 } := by
  rw [complete, ← hc, show resultWord .illegal 0#16 = 0xFF0000#24 by decide]

theorem presentP_ignored (h : ∀ i, decode w = .ok i → i.port = .C) : presentP w s = .next s := by
  unfold presentP
  split
  · rename_i i hd
    simp [h i hd]
  · rfl

/-- A free port C hands an operation of its own to `exec`, which judges the operands. -/
theorem presentC_runs (hc : s.cop = .idle) (hd : decode w = .ok i) (hp : i.port = .C) :
    presentC w s = exec i s := by
  simp [presentC, hc, hd, hp]

theorem presentC_not_portC (hc : s.cop = .idle) (h : ∀ i, decode w = .ok i → i.port = .P) :
    presentC w s = .next (complete s .illegal 0#16) := by
  simp only [presentC, hc]
  split
  · rename_i i hd
    simp [h i hd]
  · rfl

/-- `RDLINE 0` is refused by its own rule (R137). -/
theorem exec_rdline_zero (hc : s.cop = .idle) : exec (.rdline 0#16) s = .next (complete s .illegal 0#16) :=
  execRdline_next.2 (.inr (.inl ⟨hc, by decide, rfl⟩))

/-- `START` of a buffer past the end of `TXMEM` is refused by its own rule (R171). -/
theorem exec_start_outside {a n : Word} (hc : s.cop = .idle) (h : 0x10000 < a.toNat + n.toNat) :
    exec (.start a n) s = .next (complete s .illegal 0#16) :=
  execStart_next.2 (.inr (.inl ⟨hc, decide_eq_false (by omega), rfl⟩))

/-- Each kind of illegal command of R95 completes with `(ILLEGAL, 0)` at a free port C. -/
theorem presentC_illegal (hc : s.cop = .idle) (h : ∀ i, decode w = .ok i →
      i.port = .P ∨ i = .rdline 0#16 ∨ ∃ a n : Word, i = .start a n ∧ 0x10000 < a.toNat + n.toNat) :
    presentC w s = .next (complete s .illegal 0#16) := by
  cases hd : decode w with
  | error e => exact presentC_not_portC hc (by simp [hd])
  | ok i =>
    obtain hp | rfl | ⟨a, n, rfl, hlong⟩ := h i hd
    · exact presentC_not_portC hc (by simp [hd, hp])
    · rw [presentC_runs hc hd rfl, exec_rdline_zero hc]
    · rw [presentC_runs hc hd rfl, exec_start_outside hc hlong]

/-- Settles O5: the listed masks and match words are those of the map's rows, and `presentC` and `presentP` say what
an illegal word does. -/
theorem illegalCommandChangesNothingButRes : Obligations.IllegalCommandChangesNothingButRes := by
  refine ⟨fun w => ?decodes, fun s w rest hs hc h => ?portC, fun s w rest hs h => ?portP⟩
  case decodes =>
    show _ ↔ ∃ p ∈ rows.map fun r => (r.format.mask, r.matchWord), w &&& p.1 = p.2
    simp only [decodes_iff_selected, List.mem_map, exists_exists_and_eq_and]
  case portC =>
    rw [step_cons hs]
    exact (presentC_illegal (s := { s with schedule := rest }) hc h).trans (congrArg _ (complete_illegal_idle hc))
  case portP =>
    rw [step_cons hs]
    exact presentP_ignored h

end Sys2Proof.Machine
end

section
/-! `PUSH` (40_ring_producer R120): when its candidate index is `ring.rd`, and the state it answers on each path. -/

namespace Sys2Proof.Machine

variable {s : State}

/-- An index is read back from its word as the residue of R120: `N` is at most `2^16`. -/
theorem nextIndex_toNat_mod (hp : s.cfg.wf) (i : Word) :
    (nextIndex s.cfg.n i).toNat = (i.toNat + 1) % s.cfg.n := by
  obtain ⟨⟨hlo, hhi⟩, -⟩ := hp
  have hlt : (i.toNat + 1) % s.cfg.n < s.cfg.n := Nat.mod_lt _ (by omega)
  rw [nextIndex, BitVec.toNat_ofNat, Nat.mod_eq_of_lt (by omega)]

/-- `cand == ring.rd` of R120 over the naturals. -/
theorem nextIndex_eq_rd_iff (hp : s.cfg.wf) :
    nextIndex s.cfg.n s.ring.wr = s.ring.rd ↔ (s.ring.wr.toNat + 1) % s.cfg.n = s.ring.rd.toNat := by
  rw [← BitVec.toNat_inj, nextIndex_toNat_mod hp]

theorem exec_push_reject (hw : s.ring.wr.toNat < s.cfg.n) (hfull : nextIndex s.cfg.n s.ring.wr = s.ring.rd)
    (b : Byte) : exec (.push b) s = .next { s with ring := { s.ring with
      storage := s.ring.storage.set s.ring.wr.toNat b, ovf := true } } :=
  execPush_next.2 ⟨hw, .inl ⟨hfull, rfl⟩⟩

theorem exec_push_accept (hw : s.ring.wr.toNat < s.cfg.n) (hfree : nextIndex s.cfg.n s.ring.wr ≠ s.ring.rd)
    (b : Byte) : exec (.push b) s = .next { s with ring := { s.ring with
      storage := s.ring.storage.set s.ring.wr.toNat b, wr := nextIndex s.cfg.n s.ring.wr } } :=
  execPush_next.2 ⟨hw, .inr ⟨hfree, rfl⟩⟩

/-- Settles O10: by cases on the test of R120, the byte stored on both paths. -/
theorem pushStoresThenAdvancesOrFlagsOverflow : Obligations.PushStoresThenAdvancesOrFlagsOverflow := by
  intro s b hp hw
  have hsame : (s.ring.storage.set s.ring.wr.toNat b).get? s.ring.wr.toNat = some b := Memory.get?_set_same ..
  have hother (a : Nat) (ha : a ≠ s.ring.wr.toNat) :
      (s.ring.storage.set s.ring.wr.toNat b).get? a = s.ring.storage.get? a := Memory.get?_set_ne ha b
  by_cases hfull : nextIndex s.cfg.n s.ring.wr = s.ring.rd
  · have hmod := (nextIndex_eq_rd_iff hp).1 hfull
    exact ⟨_, exec_push_reject hw hfull b, hsame, hother, fun _ => ⟨rfl, rfl⟩, fun hne => absurd hmod hne, rfl, rfl⟩
  · have hmod := mt (nextIndex_eq_rd_iff hp).2 hfull
    exact ⟨_, exec_push_accept hw hfull b, hsame, hother, fun heq => absurd heq hmod,
      fun _ => ⟨nextIndex_toNat_mod hp _, rfl⟩, rfl, rfl⟩

end Sys2Proof.Machine
end

section
/-! The converse of `exec_cases`: in the situation a case of `StepCase` names, `exec` answers that case's state. What an
operation does is then read off its cases, with no meaning unfolded. -/

namespace Sys2Proof.Machine

variable {i : Instr} {s t : State}

/-- `DrainOne()` delivers the byte at `ring.rd` (R132). -/
theorem drainOne_oldest {b : Byte} (hb : s.oldest b) : drainOne s = .ok (b, s.drained b) := drainOne_ok.2 ⟨hb, rfl⟩

theorem exec_of_stepCase (h : StepCase s i t) : exec i s = .next t := by
  cases h with
  | pushReject b hw hfull => exact execPush_next.2 ⟨hw, .inl ⟨hfull, rfl⟩⟩
  | pushAccept b hw hfree => exact execPush_next.2 ⟨hw, .inr ⟨hfree, rfl⟩⟩
  | txevIdle hfin => exact execTxev_next.2 (.inl ⟨hfin, rfl⟩)
  | txevBurst bs hfin hbs => exact execTxev_next.2 (.inr ⟨hfin, bs, hbs, rfl⟩)
  | count hc => exact execCount_next.2 ⟨hc, rfl⟩
  | isovf hc => exact execIsovf_next.2 ⟨hc, rfl⟩
  | peeklnOvf hc hovf => exact execPeekln_next.2 ⟨hc, .inl ⟨hovf, rfl⟩⟩
  | peeklnScan d hc hovf hd => exact execPeekln_next.2 ⟨hc, .inr ⟨hovf, d, hd, rfl⟩⟩
  | clear hc => exact execClear_next.2 ⟨hc, rfl⟩
  | isfin hc => exact execIsfin_next.2 ⟨hc, rfl⟩
  | clrtx hc => exact execClrtx_next.2 ⟨hc, rfl⟩
  | setmode m hc => exact execSetmode_next.2 ⟨hc, rfl⟩
  | setdelim b hc => exact execSetdelim_next.2 ⟨hc, rfl⟩
  | rdnbAccept max hc => exact execRdnb_next.2 (.inl ⟨hc, rfl⟩)
  | rdnbNone max hc h0 => exact execRdnb_next.2 (.inr (.inl ⟨hc, rdnbStepS_next.2 (.inl ⟨h0, rfl⟩)⟩))
  | rdnbSome max hc h0 => exact execRdnb_next.2 (.inr (.inl ⟨hc, rdnbStepS_next.2 (.inr ⟨h0, rfl⟩)⟩))
  | rdnbLast max n cnt b hc hb hn =>
    exact execRdnb_next.2 (.inr (.inr ⟨n, cnt, hc, rdnbStepD_next.2 ⟨b, _, drainOne_oldest hb, .inl ⟨hn, rfl⟩⟩⟩))
  | rdnbMore max n cnt b hc hb hn =>
    exact execRdnb_next.2 (.inr (.inr ⟨n, cnt, hc, rdnbStepD_next.2 ⟨b, _, drainOne_oldest hb, .inr ⟨hn, rfl⟩⟩⟩))
  | readAccept max hc => exact execRead_next.2 (.inl ⟨hc, rfl⟩)
  | readGo max hc hne => exact execRead_next.2 (.inr (.inl ⟨hc, readStepW_next.2 (.inl ⟨hne, rfl⟩)⟩))
  | readTimeout max u hc he ha =>
    exact execRead_next.2 (.inr (.inl ⟨hc, readStepW_next.2 (.inr ⟨he, .inl ⟨u, ha, rfl⟩⟩)⟩))
  | readWait max u hc he ha => exact execRead_next.2 (.inr (.inl ⟨hc, readStepW_next.2 (.inr ⟨he, .inr ha⟩)⟩))
  | readDone max cnt hc hend => exact execRead_next.2 (.inr (.inr ⟨cnt, hc, readStepD_next.2 (.inl ⟨hend, rfl⟩)⟩))
  | readDrain max cnt b hc hcnt hne hb =>
    exact execRead_next.2 (.inr (.inr ⟨cnt, hc,
      readStepD_next.2 (.inr ⟨hcnt, hne, b, _, drainOne_oldest hb, rfl⟩)⟩))
  | readfAccept max hc => exact execReadf_next.2 (.inl ⟨hc, rfl⟩)
  | readfDone max hc => exact execReadf_next.2 (.inr (.inl ⟨max, hc, readfStepF_next.2 (.inl ⟨rfl, rfl⟩)⟩))
  | readfInner max total hc hne =>
    exact execReadf_next.2 (.inr (.inl ⟨total, hc, readfStepF_next.2 (.inr ⟨hne, rfl⟩)⟩))
  | readfGo max total cnt hc hne =>
    exact execReadf_next.2 (.inr (.inr (.inl ⟨total, cnt, hc, readfStepW_next.2 (.inl ⟨hne, rfl⟩)⟩)))
  | readfTimeout max total cnt u hc he ha =>
    exact execReadf_next.2 (.inr (.inr (.inl ⟨total, cnt, hc,
      readfStepW_next.2 (.inr ⟨he, .inl ⟨u, ha, rfl⟩⟩)⟩)))
  | readfWait max total cnt u hc he ha =>
    exact execReadf_next.2 (.inr (.inr (.inl ⟨total, cnt, hc, readfStepW_next.2 (.inr ⟨he, .inr ha⟩)⟩)))
  | readfBatch max total cnt hc hend =>
    exact execReadf_next.2 (.inr (.inr (.inr ⟨total, cnt, hc, readfStepD_next.2 (.inl ⟨hend, rfl⟩)⟩)))
  | readfDrain max total cnt b hc hcnt hne hb =>
    exact execReadf_next.2 (.inr (.inr (.inr ⟨total, cnt, hc,
      readfStepD_next.2 (.inr ⟨hcnt, hne, b, _, drainOne_oldest hb, rfl⟩)⟩)))
  | rdlineAccept size hc hl => exact execRdline_next.2 (.inl ⟨hc, hl, rfl⟩)
  | rdlineIllegal size hc hl => exact execRdline_next.2 (.inr (.inl ⟨hc, hl, rfl⟩))
  | rdlineFull size cnt hc hcnt =>
    exact execRdline_next.2 (.inr (.inr ⟨cnt, hc, rdlineStepL_next.2 (.inl ⟨hcnt, rfl⟩)⟩))
  | rdlineBad size cnt hc hcnt hovf =>
    exact execRdline_next.2 (.inr (.inr ⟨cnt, hc, rdlineStepL_next.2 (.inr (.inl ⟨hcnt, hovf, rfl⟩))⟩))
  | rdlineTimeout size cnt u hc hcnt hovf he ha =>
    exact execRdline_next.2 (.inr (.inr ⟨cnt, hc,
      rdlineStepL_next.2 (.inr (.inr (.inl ⟨hcnt, hovf, he, .inl ⟨u, ha, rfl⟩⟩)))⟩))
  | rdlineWait size cnt u hc hcnt hovf he ha =>
    exact execRdline_next.2 (.inr (.inr ⟨cnt, hc,
      rdlineStepL_next.2 (.inr (.inr (.inl ⟨hcnt, hovf, he, .inr ha⟩)))⟩))
  | rdlineDelim size cnt hc hcnt hovf hne hb =>
    exact execRdline_next.2 (.inr (.inr ⟨cnt, hc,
      rdlineStepL_next.2 (.inr (.inr (.inr ⟨hcnt, hovf, hne, _, _, drainOne_oldest hb, .inl ⟨rfl, rfl⟩⟩)))⟩))
  | rdlineByte size cnt b hc hcnt hovf hne hb hdelim =>
    exact execRdline_next.2 (.inr (.inr ⟨cnt, hc,
      rdlineStepL_next.2 (.inr (.inr (.inr ⟨hcnt, hovf, hne, b, _, drainOne_oldest hb, .inr ⟨hdelim, rfl⟩⟩)))⟩))
  | startAccept a n hc hl => exact execStart_next.2 (.inl ⟨hc, hl, rfl⟩)
  | startIllegal a n hc hl => exact execStart_next.2 (.inr (.inl ⟨hc, hl, rfl⟩))
  | startBusy a n hc hfin => exact execStart_next.2 (.inr (.inr (.inl ⟨hc, startStepS0_next.2 (.inl ⟨hfin, rfl⟩)⟩)))
  | startNone a hc hfin =>
    exact execStart_next.2 (.inr (.inr (.inl ⟨hc, startStepS0_next.2 (.inr (.inl ⟨hfin, rfl, rfl⟩))⟩)))
  | startArm a n hc hfin hn hmode =>
    exact execStart_next.2 (.inr (.inr (.inl ⟨hc,
      startStepS0_next.2 (.inr (.inr (.inl ⟨hfin, hn, hmode, rfl⟩)))⟩)))
  | startArmWait a n hc hfin hn hmode =>
    exact execStart_next.2 (.inr (.inr (.inl ⟨hc,
      startStepS0_next.2 (.inr (.inr (.inr ⟨hfin, hn, hmode, rfl⟩)))⟩)))
  | startDone a n hc hfin => exact execStart_next.2 (.inr (.inr (.inr ⟨hc, startStepS1_next.2 (.inl ⟨hfin, rfl⟩)⟩)))
  | startTimeout a n u hc hfin ha =>
    exact execStart_next.2 (.inr (.inr (.inr ⟨hc, startStepS1_next.2 (.inr ⟨hfin, .inl ⟨u, ha, rfl⟩⟩)⟩)))
  | startWait a n u hc hfin ha =>
    exact execStart_next.2 (.inr (.inr (.inr ⟨hc, startStepS1_next.2 (.inr ⟨hfin, .inr ha⟩)⟩)))

/-- A completion at a free port C changes `RES` alone. -/
theorem complete_idle (hc : s.cop = .idle) (st : Status) (v : Word) :
    complete s st v = { s with res := resultWord st v } := by
  rw [complete, ← hc]

end Sys2Proof.Machine
end

section
/-! The consumer port of the ring (41_ring_consumer): its single-step queries, `CLEAR`, and every labelled step of
`RDNB`, `READ` and `READF`. Each clause of a statement is a case of `StepCase`. -/

namespace Sys2Proof.Machine

variable {s : State}

/-! ## The values of `COUNT` and `RDNB` fit a word -/

/-- `N` is at most `2^16`, so a count fits the 16-bit value field of `RES`. -/
theorem count_word_toNat (hp : s.cfg.wf) : (BitVec.ofNat 16 s.count).toNat = s.count := by
  obtain ⟨⟨hlo, hhi⟩, -⟩ := hp
  have hlt : s.count < s.cfg.n := residue_lt _ _ (by omega)
  exact Nat.mod_eq_of_lt (by omega)

/-- The test `n == 0` of `RDNB` on the word is the test on `min(max, avail)` itself (R134). -/
theorem batch_word_eq_zero_iff (max : Word) : BitVec.ofNat 16 (s.batch max) = 0#16 ↔ min max.toNat s.count = 0 := by
  have hmax : min max.toNat s.count < 2 ^ 16 := lt_of_le_of_lt (Nat.min_le_left ..) max.isLt
  rw [← BitVec.toNat_inj, BitVec.toNat_ofNat, State.batch, Nat.mod_eq_of_lt hmax, BitVec.toNat_zero]

/-! ## Single steps -/

/-- Settles O13: the count is the mathematical residue, and it fits the value field. -/
theorem countAnswersTheResidue : Obligations.CountAnswersTheResidue := by
  intro s hp hc
  have hn : 0 < s.cfg.n := Nat.lt_of_lt_of_le Nat.two_pos hp.1.1
  have hlt : s.count < s.cfg.n := residue_lt _ _ hn
  refine ⟨BitVec.ofNat 16 s.count, complete_idle hc .. ▸ exec_of_stepCase (.count hc), ?_, ?_⟩
  · rw [count_word_toNat hp]
    exact residue_cast _ _ hn
  · rw [count_word_toNat hp]
    omega

/-- Settles O15: the one case of `ISOVF`, at a free port C. -/
theorem isovfAnswersTheFlag : Obligations.IsovfAnswersTheFlag := fun _ hc =>
  complete_idle hc .. ▸ exec_of_stepCase (.isovf hc)

/-- Settles O22: the one case of `CLEAR`, at a free port C. -/
theorem clearEmptiesTheRing : Obligations.ClearEmptiesTheRing := fun s hc =>
  complete_idle (s := { s with ring := s.ring.cleared }) hc .. ▸ exec_of_stepCase (.clear hc)

/-- Settles O21: the scan from the oldest byte over the stored region stops at the first delimiter (R138). -/
theorem peeklnAnswersTheNearestDelimiter : Obligations.PeeklnAnswersTheNearestDelimiter := by
  refine fun s _ hr hc => ⟨fun hovf => ?flag, fun d hovf hd hdelim hfirst => ?found, fun hovf hnone => ?none⟩
  case flag => exact complete_idle hc .. ▸ exec_of_stepCase (.peeklnOvf hc hovf)
  case found =>
    have hscan : scanFrom s 0 s.count = .ok (d + 1) :=
      scanFrom_found hr hdelim s.count 0 (by omega) (by omega) (by omega) fun j _ => hfirst j
    exact complete_idle hc .. ▸ exec_of_stepCase (.peeklnScan (d + 1) hc hovf hscan)
  case none =>
    have hscan : scanFrom s 0 s.count = .ok 0 :=
      scanFrom_none hr s.count 0 (by omega) fun j _ hj => hnone j (by omega)
    exact complete_idle hc .. ▸ exec_of_stepCase (.peeklnScan 0 hc hovf hscan)

/-! ## Labelled steps -/

/-- Settles O17: the two outcomes of the snapshot at `S`, then the two of a drained byte at `D`. -/
theorem rdnbSteps : Obligations.RdnbSteps := by
  refine fun s max _ => ⟨fun hc h0 => ?none, fun hc h0 => ?some, fun n cnt b hc hrd hb hn => ?last,
    fun n cnt b hc hrd hb hn => ?more⟩
  case none => exact exec_of_stepCase (.rdnbNone max hc ((batch_word_eq_zero_iff max).2 h0))
  case some => exact exec_of_stepCase (.rdnbSome max hc (mt (batch_word_eq_zero_iff max).1 h0))
  case last => exact exec_of_stepCase (.rdnbLast max n cnt b hc ⟨hrd, hb⟩ hn)
  case more => exact exec_of_stepCase (.rdnbMore max n cnt b hc ⟨hrd, hb⟩ hn)

/-- Settles O18: the three outcomes at `W`, then the two at `D`. -/
theorem readSteps : Obligations.ReadSteps := by
  refine fun s max => ⟨fun hc hne => ?go, fun t hc he ha => ?timeout, fun t hc he ha => ?wait,
    fun cnt hc hend => ?done, fun cnt b hc hcnt hne hrd hb => ?drain⟩
  case go => exact exec_of_stepCase (.readGo max hc hne)
  case timeout => exact exec_of_stepCase (.readTimeout max t hc he ha)
  case wait => exact exec_of_stepCase (.readWait max t hc he ha)
  case done => exact exec_of_stepCase (.readDone max cnt hc hend)
  case drain => exact exec_of_stepCase (.readDrain max cnt b hc hcnt hne ⟨hrd, hb⟩)

/-- Settles O19: the two outcomes at `F`, the three at `W`, then the two at `D`. -/
theorem readfSteps : Obligations.ReadfSteps := by
  refine fun s max => ⟨fun hc => ?done, fun total hc hne => ?inner, fun total cnt hc hne => ?go,
    fun total cnt t hc he ha => ?timeout, fun total cnt t hc he ha => ?wait, fun total cnt hc hend => ?batch,
    fun total cnt b hc hcnt hne hrd hb => ?drain⟩
  case done => exact exec_of_stepCase (.readfDone max hc)
  case inner => exact exec_of_stepCase (.readfInner max total hc hne)
  case go => exact exec_of_stepCase (.readfGo max total cnt hc hne)
  case timeout => exact exec_of_stepCase (.readfTimeout max total cnt t hc he ha)
  case wait => exact exec_of_stepCase (.readfWait max total cnt t hc he ha)
  case batch => exact exec_of_stepCase (.readfBatch max total cnt hc hend)
  case drain => exact exec_of_stepCase (.readfDrain max total cnt b hc hcnt hne ⟨hrd, hb⟩)

end Sys2Proof.Machine
end

section
/-! The transmit sequencer (42_transmit_sequencer): every labelled step of `START`, and the single steps `ISFIN` and
`CLRTX`. Each clause of a statement is a case of `StepCase`. -/

namespace Sys2Proof.Machine

/-- Settles O27: the operand test at a free port C, the four outcomes at `S0`, then the three at `S1`. The value of a
timeout is read in the state the predicate leaves, which has the same `tx`. -/
theorem startSteps : Obligations.StartSteps := by
  refine fun s a n => ⟨fun hc hlong => ?illegal, fun hc hfin => ?busy, fun hc hfin hn => ?none,
    fun hc hfin hn hmode => ?arm, fun hc hfin hn hmode => ?armWait, fun hc hfin => ?done,
    fun t hc hfin ha => ?timeout, fun t hc hfin ha => ?wait⟩
  case illegal => exact complete_idle hc .. ▸ exec_start_outside hc hlong
  case busy => exact exec_of_stepCase (.startBusy a n hc hfin)
  case none =>
    subst hn
    exact exec_of_stepCase (.startNone a hc hfin)
  case arm => exact exec_of_stepCase (.startArm a n hc hfin hn hmode)
  case armWait => exact exec_of_stepCase (.startArmWait a n hc hfin hn hmode)
  case done => exact exec_of_stepCase (.startDone a n hc hfin)
  case timeout =>
    obtain ⟨-, -, htx, -⟩ := asked_fields ha
    rw [← htx]
    exact exec_of_stepCase (.startTimeout a n t hc hfin ha)
  case wait => exact exec_of_stepCase (.startWait a n t hc hfin ha)

/-- Settles O29: the one case of `ISFIN`, at a free port C. -/
theorem isfinAnswersTheFlag : Obligations.IsfinAnswersTheFlag := fun _ hc =>
  complete_idle hc .. ▸ exec_of_stepCase (.isfin hc)

/-- Settles O30: the one case of `CLRTX`, at a free port C. -/
theorem clrtxAbandonsTheTransmission : Obligations.ClrtxAbandonsTheTransmission := fun s hc =>
  complete_idle (s := { s with tx := s.tx.finish }) hc .. ▸ exec_of_stepCase (.clrtx hc)

end Sys2Proof.Machine
end

section
/-! The channel's configuration operations (43_channel): `SETMODE` and `SETDELIM` each have one case of `StepCase`. -/

namespace Sys2Proof.Machine

/-- Settles O33: the one case of `SETMODE`, at a free port C. -/
theorem setmodeWritesTheMode : Obligations.SetmodeWritesTheMode := fun s m hc =>
  complete_idle (s := { s with ch := { s.ch with mode := m } }) hc .. ▸ exec_of_stepCase (.setmode m hc)

/-- Settles O34: the one case of `SETDELIM`, at a free port C. -/
theorem setdelimWritesTheDelimiter : Obligations.SetdelimWritesTheDelimiter := fun s b hc =>
  complete_idle (s := { s with ch := { s.ch with delim := b } }) hc .. ▸ exec_of_stepCase (.setdelim b hc)

end Sys2Proof.Machine
end

section
/-! Decoding and encoding are inverse to each other (30_encoding R90 to R93): what each row of the map reads from the
fields of a word, and the fields of an operation's word. -/

namespace Sys2Proof

/-- The word of every operation is selected by the mask of its format. -/
theorem encode_selected (i : Instr) : Laws.EncodedRow.Statement i := by
  cases i with
  | push b => exact Laws.EncodedRow.push b
  | txev => exact Laws.EncodedRow.txev
  | count => exact Laws.EncodedRow.count
  | isovf => exact Laws.EncodedRow.isovf
  | rdnb max => exact Laws.EncodedRow.rdnb max
  | read max => exact Laws.EncodedRow.read max
  | readf max => exact Laws.EncodedRow.readf max
  | rdline size => exact Laws.EncodedRow.rdline size
  | peekln => exact Laws.EncodedRow.peekln
  | clear => exact Laws.EncodedRow.clear
  | start a n => exact Laws.EncodedRow.start a n
  | isfin => exact Laws.EncodedRow.isfin
  | clrtx => exact Laws.EncodedRow.clrtx
  | setmode m => exact Laws.EncodedRow.setmode m
  | setdelim b => exact Laws.EncodedRow.setdelim b

/-- Every operation has a row of the map, which reads the operation back from its word. -/
theorem row_reads_encode (i : Instr) :
    ∃ r ∈ rows, r.op = i.opcode ∧ r.format = i.format ∧ r.read (encode i) = i := by
  cases i <;> simp [rows, Instr.opcode, Instr.format, imm8Field_eq, modeField_eq, Instr.bWord, Instr.aWord]
  case setmode m => cases m <;> decide

@[simp] theorem decode_encode (i : Instr) : decode (encode i) = .ok i := by
  obtain ⟨r, hr, hop, hformat, hread⟩ := row_reads_encode i
  have hsel : encode i &&& r.format.mask = r.matchWord := by
    rw [hformat, Row.matchWord, hop]
    exact encode_selected i
  rw [decode_selected hr hsel, hread]

/-- Settles O2: the row of the operation selects its word and reads the operation back. -/
theorem decodeEncodeRoundTrip : Obligations.DecodeEncodeRoundTrip := decode_encode

/-- The mode bit read from a word is its bit 0. -/
theorem bit_modeField (w : Cmd) : (modeField w).bit = (bField w).setWidth 1 := by
  rw [modeField_eq]
  generalize (bField w).setWidth 1 = m
  revert m
  decide

/-- A word whose reserved bits are 0 has the operand fields of the operation its row reads. -/
theorem operands_read {r : Row} (hr : r ∈ rows) {w : Cmd} (ha : aField w &&& r.format.aMask = 0#16)
    (hb : bField w &&& r.format.bMask = 0#16) : (r.read w).aWord = aField w ∧ (r.read w).bWord = bField w := by
  have hmode : bField w &&& 0xFFFE#16 = 0#16 → (modeField w).bit.setWidth 16 = bField w := fun h => by
    rw [bit_modeField, ← (and_fffe _).1 h]
  have himm : bField w &&& 0xFF00#16 = 0#16 → (imm8Field w).setWidth 16 = bField w := fun h => by
    rw [imm8Field_eq, ← (and_ff00 _).1 h]
  revert r
  simp only [rows, List.forall_mem_cons, Format.aMask, Format.bMask, Instr.aWord, Instr.bWord, and_ffff]
  simp +contextual [hmode, himm]

/-- Settles O3: the three fields of the word are those of the operation it decodes to. -/
theorem encodeDecodeRoundTrip : Obligations.EncodeDecodeRoundTrip := by
  intro w i h
  obtain ⟨r, hr, hop, hsel, rfl⟩ := decode_ok h
  obtain ⟨-, ha, hb⟩ := (row_select_iff r w).1 hsel
  obtain ⟨hA, hB⟩ := operands_read hr ha hb
  rw [encode, opcode_read hr, hA, hB, ← hop, word_split]

/-- Settles O4: the decoder evaluated on the seven words. -/
theorem specWordsDecode : Obligations.SpecWordsDecode := by
  unfold Obligations.SpecWordsDecode
  decide

end Sys2Proof
end

section
/-! What the next input of the schedule runs (10_state R34, 20_memory R68), the word placed at its head, and port C
while an operation is in progress there. -/

namespace Sys2Proof.Machine

variable {s : State} {w : Cmd} {i : Instr}

theorem presentP_runs (hd : decode w = .ok i) (hp : i.port = .P) : presentP w s = exec i s := by
  simp [presentP, hd, hp]

theorem presentC_busy (hc : s.cop ≠ .idle) : presentC w s = .refused .portCBusy := by
  unfold presentC
  split
  · exact absurd ‹_› hc
  · rfl

theorem advanceC_runs (hi : s.cop.instr? = some i) : advanceC s = exec i s := by
  simp [advanceC, hi]

theorem advanceC_idle (hc : s.cop = .idle) : advanceC s = .next s := by
  simp [advanceC, Cop.instr?, hc]

/-- Settles O7: each kind of input at its port, and the turn of port C with and without an operation in progress. -/
theorem stepRunsTheDecodedCommand : Obligations.StepRunsTheDecodedCommand := by
  refine fun s rest => ⟨fun w i hs hd hp => ?portP, fun w i hs hc hd hp => ?portC, fun i hs hi => ?turn,
    fun i hs hi => ?ongoing, fun hs hc => ?idleTurn, fun hs hc => ?standstill⟩
  case portP => exact (step_cons hs).trans (presentP_runs hd hp)
  case portC => exact (step_cons hs).trans (presentC_runs (s := { s with schedule := rest }) hc hd hp)
  case turn => exact (step_cons hs).trans (advanceC_runs (s := { s with schedule := rest }) hi)
  case ongoing => exact (step_nil hs).trans (advanceC_runs hi)
  case idleTurn => exact (step_cons hs).trans (advanceC_idle (s := { s with schedule := rest }) hc)
  case standstill => exact (step_nil hs).trans (advanceC_idle hc)

theorem decodeTableWord_eq_some {n : Nat} :
    decodeTableWord 40 n = some i ↔ decode (BitVec.ofNat 40 (n % 2 ^ 40)) = .ok i := by
  unfold decodeTableWord
  split <;> simp_all

/-- Settles O8: the word goes to the head of the schedule at the port of its operation. -/
theorem placedWordRunsNext : Obligations.PlacedWordRunsNext := by
  intro s n i h
  have hd := decodeTableWord_eq_some.1 h
  refine ⟨fun hp => ?portP, fun hp => ?portC⟩
  case portP =>
    rw [State.withFetchWord, placeCommand, hd]
    dsimp only
    rw [if_pos hp, step_cons rfl]
    exact presentP_runs hd hp
  case portC =>
    rw [State.withFetchWord, placeCommand, hd]
    dsimp only
    rw [if_neg (by simp [hp]), step_cons rfl]
    exact presentC_runs (s := { s with cop := .idle }) rfl hd hp

/-! ## A busy port C (R34, R232) -/

/-- The operation in progress alone can take a step at port C: a compound operation stands at a label of its own. -/
theorem exec_busy (hp : i.port = .C) (hc : s.cop ≠ .idle) (hi : s.cop.instr? ≠ some i) :
    exec i s = .refused .portCBusy := by
  cases i with
  | push | txev => cases hp
  | count | isovf | peekln | clear | isfin | clrtx | setmode | setdelim => exact whenFree_busy hc _
  | rdnb max => cases hs : s.cop <;> simp_all [exec, execRdnb, Cop.instr?]
  | read max => cases hs : s.cop <;> simp_all [exec, execRead, Cop.instr?]
  | readf max => cases hs : s.cop <;> simp_all [exec, execReadf, Cop.instr?]
  | rdline size => cases hs : s.cop <;> simp_all [exec, execRdline, Cop.instr?]
  | start a n => cases hs : s.cop <;> simp_all [exec, execStart, Cop.instr?]

/-- Settles O9: a word is refused where it is presented, an operation where it is executed. -/
theorem portCHoldsOneOperation : Obligations.PortCHoldsOneOperation :=
  ⟨fun s _ rest hs hc => (step_cons hs).trans (presentC_busy (s := { s with schedule := rest }) hc),
    fun _ _ => exec_busy⟩

/-- Settles O16: the accepting case of each compound operation. -/
theorem compoundCommandsAreTakenUp : Obligations.CompoundCommandsAreTakenUp := by
  refine fun s hc => ⟨fun max => ?rdnb, fun max => ?read, fun max => ?readf, fun size hsize => ?rdline,
    fun a n hle => ?start⟩
  case rdnb => exact exec_of_stepCase (.rdnbAccept max hc)
  case read => exact exec_of_stepCase (.readAccept max hc)
  case readf => exact exec_of_stepCase (.readfAccept max hc)
  case rdline =>
    exact exec_of_stepCase (.rdlineAccept size hc (decide_eq_true (BitVec.toNat_ne.1 hsize)))
  case start => exact exec_of_stepCase (.startAccept a n hc (decide_eq_true hle))

end Sys2Proof.Machine
end

section
/-! One step of an operation and the bytes of the ring (20_memory R63, R69; 41_ring_consumer R132): the ring invariant
is kept, and what was stored, then what is accepted, is what is delivered, then what is stored afterwards. -/

namespace Sys2Proof.Machine

variable {i : Instr} {s t : State} {b : Byte} {ending : List Byte}

/-- Bytes go from `s` to `t` first in, first out: at most one is delivered, `OUT` grows by it and at most a terminator,
and the pushed bytes are accepted unless the ring is full. -/
def FifoStep (s t : State) (pushed : List Byte) : Prop :=
  ∃ accepted delivered ending, s.contents ++ accepted = delivered ++ t.contents ∧ delivered.length ≤ 1 ∧
    t.out = s.out ++ delivered ++ ending ∧ (ending = [] ∨ ending = [0x00#8]) ∧
    (accepted = pushed ∨ accepted = [] ∧ s.count = s.cfg.n - 1 ∧ t.ring.ovf = true)

/-- The bytes an operation gives to the ring. -/
def pushedBy : Instr → List Byte
  | .push b => [b]
  | _ => []

theorem count_ne_zero_of_indices (hr : RingInv s) (hne : s.ring.rd ≠ s.ring.wr) : s.count ≠ 0 := fun h0 =>
  hne (ringEmpty_iff_eq.1 ((ringEmpty_iff hr).2 h0))

/-- The byte at `ring.rd` is the first of the stored bytes. -/
theorem drained_contents (hp : s.cfg.wf) (hr : RingInv s) (h0 : s.count ≠ 0) (hb : s.oldest b) :
    RingInv (s.drained b) ∧ s.contents = b :: (s.drained b).contents :=
  ring_drain hp hr h0 rfl rfl rfl rfl hb.2

theorem fifo_of_kept (hi : Inv s) (hc : t.cfg = s.cfg) (hr : t.ring = s.ring) (ho : t.out = s.out ++ ending)
    (he : ending = [] ∨ ending = [0x00#8]) : RingInv t ∧ FifoStep s t [] :=
  ⟨ringInv_congr hc hr hi.ring, [], [], ending, by simp [contents_congr hc hr], by simp, by simpa using ho, he,
    .inl rfl⟩

theorem fifo_of_drained (hi : Inv s) (h0 : s.count ≠ 0) (hb : s.oldest b) (hc : t.cfg = s.cfg)
    (hr : t.ring = (s.drained b).ring) (ho : t.out = s.out ++ [b] ++ ending)
    (he : ending = [] ∨ ending = [0x00#8]) : RingInv t ∧ FifoStep s t [] := by
  obtain ⟨hinv, hcont⟩ := drained_contents hi.params hi.ring h0 hb
  refine ⟨ringInv_congr (s := s.drained b) hc hr hinv, [], [b], ending, ?_, by simp, ho, he, .inl rfl⟩
  rw [List.append_nil, hcont, contents_congr (s := s.drained b) hc hr, List.singleton_append]

theorem fifo_of_asked {u : State} {fired : Bool} (hi : Inv s) (ha : Asked s fired u) (hc : t.cfg = u.cfg)
    (hr : t.ring = u.ring) (ho : t.out = u.out ++ ending) (he : ending = [] ∨ ending = [0x00#8]) :
    RingInv t ∧ FifoStep s t [] := by
  obtain ⟨hcfg, hring, -, -, -, -, hout, -⟩ := asked_fields ha
  exact fifo_of_kept hi (hc.trans hcfg) (hr.trans hring) (hout ▸ ho) he

/-- `RDNB` at `D` has a byte to drain. -/
theorem rdnbD_count_ne_zero (hi : Inv s) {max n cnt : Word} (hc : s.cop = .rdnbD max n cnt) : s.count ≠ 0 := by
  obtain ⟨hcnt, -, hstored⟩ : cnt.toNat < n.toNat ∧ n.toNat ≤ max.toNat ∧ n.toNat - cnt.toNat ≤ s.count := by
    simpa only [CopInv, hc] using hi.cop
  omega

/-- `PUSH` on the stored bytes: a full ring keeps them and sets the flag, another gains the byte (R120). -/
theorem exec_push_contents (hp : s.cfg.wf) (hr : RingInv s) (h : exec (.push b) s = .next t) : RingInv t ∧
    (s.count = s.cfg.n - 1 ∧ t.contents = s.contents ∧ t.ring.ovf = true ∨
      s.count ≠ s.cfg.n - 1 ∧ t.contents = s.contents ++ [b] ∧ t.ring.ovf = s.ring.ovf) := by
  obtain ⟨-, ⟨hfull, ht⟩ | ⟨hfree, ht⟩⟩ := execPush_next.1 h
  · obtain ⟨hinv, hcont, -⟩ := ring_reject (t := t) (b := b) hr (by rw [ht]) (by rw [ht]) (by rw [ht]) (by rw [ht])
    exact ⟨hinv, .inl ⟨(candidate_eq_iff hp hr).1 hfull, hcont, by rw [ht]⟩⟩
  · have hroom := mt (candidate_eq_iff hp hr).2 hfree
    obtain ⟨hinv, hcont⟩ := ring_accept (t := t) (b := b) hp hr hroom (by rw [ht]) (by rw [ht]) (by rw [ht])
      (by rw [ht])
    exact ⟨hinv, .inr ⟨hroom, hcont, by rw [ht]⟩⟩

theorem exec_push_frame (h : exec (.push b) s = .next t) :
    t.out = s.out ∧ t.ring.rd = s.ring.rd ∧ t.schedule = s.schedule := by
  obtain ⟨-, ⟨-, rfl⟩ | ⟨-, rfl⟩⟩ := execPush_next.1 h <;> exact ⟨rfl, rfl, rfl⟩

theorem fifo_of_push (hi : Inv s) (h : exec (.push b) s = .next t) : RingInv t ∧ FifoStep s t [b] := by
  have hout : t.out = s.out ++ [] ++ [] := by simp [(exec_push_frame h).1]
  obtain ⟨hinv, ⟨hfull, hcont, hovf⟩ | ⟨-, hcont, -⟩⟩ := exec_push_contents hi.params hi.ring h
  · exact ⟨hinv, [], [], [], by simp [hcont], by simp, hout, .inl rfl, .inr ⟨rfl, hfull, hovf⟩⟩
  · exact ⟨hinv, [b], [], [], by simp [hcont], by simp, hout, .inl rfl, .inl rfl⟩

theorem exec_fifo (hi : Inv s) (h : exec i s = .next t) (hclear : i ≠ .clear) :
    RingInv t ∧ FifoStep s t (pushedBy i) := by
  have nonempty := count_ne_zero_of_indices hi.ring
  cases exec_cases h
  case pushReject | pushAccept => exact fifo_of_push hi h
  case clear => exact absurd rfl hclear
  case rdnbLast hc hb _ | rdnbMore hc hb _ =>
    exact fifo_of_drained hi (rdnbD_count_ne_zero hi hc) hb rfl rfl (List.append_nil _).symm (.inl rfl)
  case readDrain hne hb | readfDrain hne hb | rdlineByte hne hb _ =>
    exact fifo_of_drained hi (nonempty hne) hb rfl rfl (List.append_nil _).symm (.inl rfl)
  case rdlineDelim hne hb => exact fifo_of_drained hi (nonempty hne) hb rfl rfl rfl (.inr rfl)
  case rdlineFull | rdlineBad => exact fifo_of_kept hi rfl rfl rfl (.inr rfl)
  case rdlineTimeout ha => exact fifo_of_asked hi ha rfl rfl rfl (.inr rfl)
  case readTimeout ha | readWait ha | readfTimeout ha | readfWait ha | rdlineWait ha | startTimeout ha | startWait ha =>
    exact fifo_of_asked hi ha rfl rfl (List.append_nil _).symm (.inl rfl)
  all_goals exact fifo_of_kept hi rfl rfl (List.append_nil _).symm (.inl rfl)

theorem exec_ringInv (hi : Inv s) (h : exec i s = .next t) : RingInv t := by
  by_cases hclear : i = .clear
  · subst hclear
    obtain ⟨-, ht⟩ := execClear_next.1 h
    exact (ringInv_cleared hi.params hi.ring (by rw [ht]; rfl) (by rw [ht]; rfl)).1
  · exact (exec_fifo hi h hclear).1

end Sys2Proof.Machine
end

section
/-! Every step keeps the invariant (10_state R25, R30, R34): the sequencer's counters and the locals of the operation in
progress, then the whole state. -/

namespace Sys2Proof.Machine

variable {i : Instr} {s t : State}

/-! ## The sequencer -/

theorem txInv_finish {x : Tx} (hx : TxInv x) : TxInv x.finish where
  sent_le := hx.sent_le
  in_range := hx.in_range
  sending_pos := nofun
  sending_all_sent := nofun

theorem txInv_arm {a n : Word} (hlegal : startLegal a n = true) (hn : n ≠ 0#16) : TxInv (Tx.arm a n) where
  sent_le := by
    rw [BitVec.toNat_ne] at hn
    exact Nat.one_le_iff_ne_zero.2 hn
  in_range := of_decide_eq_true hlegal
  sending_pos _ := Nat.le_refl 1
  sending_all_sent _ h := h.symm

/-- A burst leaves the sequencer sending only while bytes are left (R172). -/
theorem txInv_advance {x : Tx} (hx : TxInv x) {n : Nat} (hn : n ≤ x.len.toNat - x.sent.toNat) :
    TxInv (x.advance n) := by
  have hsent : (x.advance n).sent.toNat = x.sent.toNat + n := by
    have := hx.sent_le
    rw [Tx.advance_sent, BitVec.toNat_ofNat]
    omega
  have hle := hx.sent_le
  refine ⟨by rw [hsent, Tx.advance_len]; omega, hx.in_range, fun hfin => ?_, fun hfin hall => ?_⟩
  · have := hx.sending_pos (Bool.or_eq_false_iff.1 hfin).1
    omega
  · exact absurd hall (beq_eq_false_iff_ne.1 (Bool.or_eq_false_iff.1 hfin).2)

theorem exec_txInv (hi : Inv s) (h : exec i s = .next t) : TxInv t.tx := by
  cases exec_txEffect h with
  | kept ht => exact ht ▸ hi.tx
  | burst _ _ ht => exact ht ▸ txInv_advance hi.tx (Nat.min_le_right _ _)
  | armed a n _ hc _ hn ht =>
    have hlegal : startLegal a n = true := by simpa [CopInv, hc] using hi.cop
    exact ht ▸ txInv_arm hlegal hn
  | cancelled _ ht => exact ht ▸ txInv_finish hi.tx
  | abandoned _ _ _ _ _ _ _ _ ht => exact ht ▸ txInv_finish hi.tx

/-! ## The operation in progress -/

theorem bump_toNat {cnt : Word} {limit : Nat} (h : cnt.toNat < limit) (hl : limit < 65536) :
    (bump cnt).toNat = cnt.toNat + 1 := by
  rw [bump, BitVec.toNat_add]
  simp
  omega

/-- `min(max, avail)` of `RDNB` fits a word. -/
theorem batch_word_toNat (s : State) (max : Word) : (BitVec.ofNat 16 (s.batch max)).toNat = s.batch max :=
  Nat.mod_eq_of_lt (lt_of_le_of_lt (Nat.min_le_left ..) max.isLt)

/-- An operation that goes on at its label keeps its bounds while no stored byte is taken away and the sequencer's
registers stay. -/
theorem copInv_of_same (hi : CopInv s) (hcop : t.cop = s.cop) (hcount : s.count ≤ t.count)
    (hbase : t.tx.base = s.tx.base) (hlen : t.tx.len = s.tx.len) : CopInv t := by
  unfold CopInv at hi ⊢
  rw [hcop, hbase, hlen]
  cases hc : s.cop <;> simp only [hc] at hi ⊢
  case rdnbD => omega
  all_goals exact hi

theorem copInv_of_asked {fired : Bool} (hi : CopInv s) (ha : Asked s fired t) : CopInv t := by
  obtain ⟨hcfg, hring, htx, -, hcop, -⟩ := asked_fields ha
  exact copInv_of_same hi hcop (count_congr hcfg hring).ge (by rw [htx]) (by rw [htx])

theorem push_count_le {b : Byte} (hp : s.cfg.wf) (hr : RingInv s) (h : exec (.push b) s = .next t) :
    s.count ≤ t.count := by
  obtain ⟨hinv, hcases⟩ := exec_push_contents hp hr h
  rw [← contents_length hr, ← contents_length hinv]
  obtain ⟨-, hcont, -⟩ | ⟨-, hcont, -⟩ := hcases <;> simp [hcont]

theorem exec_copInv (hi : Inv s) (h : exec i s = .next t) : CopInv t := by
  have hcop := hi.cop
  unfold CopInv at hcop
  cases exec_cases h
  case pushReject | pushAccept => exact copInv_of_same hi.cop rfl (push_count_le hi.params hi.ring h) rfl rfl
  case txevIdle => exact hi.cop
  case txevBurst => exact copInv_of_same hi.cop rfl (Nat.le_refl _) rfl rfl
  case readWait ha | readfWait ha | rdlineWait ha | startWait ha => exact copInv_of_asked hi.cop ha
  case rdnbSome max hc h0 =>
    have hbatch := batch_word_toNat s max
    rw [BitVec.toNat_ne, hbatch] at h0
    show _ < (BitVec.ofNat 16 (s.batch max)).toNat ∧ (BitVec.ofNat 16 (s.batch max)).toNat ≤ _ ∧
      (BitVec.ofNat 16 (s.batch max)).toNat - 0 ≤ s.count
    rw [hbatch]
    exact ⟨Nat.pos_of_ne_zero h0, Nat.min_le_left .., Nat.min_le_right ..⟩
  case rdnbMore max n cnt b hc hb hn =>
    simp only [hc] at hcop
    obtain ⟨hlt, hmax, hstored⟩ := hcop
    have hbump := bump_toNat hlt n.isLt
    have hcount : (s.drained b).count + 1 = s.count :=
      count_drain hi.params hi.ring (rdnbD_count_ne_zero hi hc) rfl rfl rfl
    rw [BitVec.toNat_ne, hbump] at hn
    show (bump cnt).toNat < n.toNat ∧ n.toNat ≤ max.toNat ∧ n.toNat - (bump cnt).toNat ≤ (s.drained b).count
    omega
  case readGo => exact Nat.zero_le _
  case readDrain max cnt b hc hne _ _ =>
    simp only [hc] at hcop
    rw [BitVec.toNat_ne] at hne
    have hbump := bump_toNat (show cnt.toNat < max.toNat by omega) max.isLt
    show (bump cnt).toNat ≤ max.toNat
    omega
  case readfAccept => exact Nat.zero_le _
  case readfInner max total hc hne =>
    simp only [hc] at hcop
    rw [BitVec.toNat_ne] at hne
    exact ⟨by omega, rfl⟩
  case readfGo max total cnt hc _ =>
    simp only [hc] at hcop
    obtain ⟨hlt, rfl⟩ := hcop
    exact hlt.le
  case readfBatch max total cnt hc _ =>
    simp only [hc] at hcop
    have := max.isLt
    show (total + cnt).toNat ≤ max.toNat
    rw [BitVec.toNat_add]
    omega
  case readfDrain max total cnt b hc hne _ _ =>
    simp only [hc] at hcop
    have hbump := bump_toNat (show cnt.toNat < max.toNat by omega) max.isLt
    show total.toNat + (bump cnt).toNat ≤ max.toNat
    omega
  case rdlineAccept size _ hlegal =>
    have hpos : size.toNat ≠ 0 := of_decide_eq_true hlegal
    exact Nat.one_le_iff_ne_zero.2 hpos
  case rdlineByte size cnt b hc hne _ _ _ _ =>
    simp only [hc] at hcop
    have hbump := bump_toNat (show cnt.toNat < size.toNat by omega) size.isLt
    show (bump cnt).toNat + 1 ≤ size.toNat
    omega
  case startAccept hlegal => exact hlegal
  case startArmWait a n _ _ hn _ => exact ⟨rfl, rfl, hn⟩
  all_goals exact trivial

/-! ## The whole state -/

theorem exec_inv (hi : Inv s) (h : exec i s = .next t) : Inv t := by
  obtain ⟨hcfg, htxmem, -⟩ := exec_keeps_cfg_txmem_schedule h
  exact ⟨hcfg ▸ hi.params, exec_ringInv hi h, exec_txInv hi h, exec_copInv hi h, htxmem ▸ hi.txmem⟩

/-- The invariant does not speak of the schedule. -/
theorem inv_withSchedule (hi : Inv s) (l : List Input) : Inv { s with schedule := l } :=
  ⟨hi.params, ringInv_congr (s := s) rfl rfl hi.ring, hi.tx, hi.cop, hi.txmem⟩

theorem inv_complete (hi : Inv s) (st : Status) (v : Word) : Inv (complete s st v) :=
  ⟨hi.params, ringInv_congr (s := s) rfl rfl hi.ring, hi.tx, trivial, hi.txmem⟩

theorem inv_envWrite (hi : Inv s) (a : Word) (b : Byte) : Inv (envWrite s a b) :=
  ⟨hi.params, ringInv_congr (s := s) rfl rfl hi.ring, hi.tx, hi.cop, envWrite_wf hi.txmem a b⟩

/-- Settles O50: `exec` keeps the invariant, and so does every other way a step is taken. -/
theorem everyStepKeepsTheInvariant : Obligations.EveryStepKeepsTheInvariant := by
  intro s t hi h
  cases step_cases h with
  | opP w i rest _ _ _ he => exact exec_inv (inv_withSchedule hi rest) he
  | ignoredP w rest _ _ ht => exact ht ▸ inv_withSchedule hi rest
  | opC w i rest _ _ _ _ he => exact exec_inv (inv_withSchedule hi rest) he
  | illegalC w rest _ _ _ ht => exact ht ▸ inv_complete (inv_withSchedule hi rest) _ _
  | turnC i rest _ _ he => exact exec_inv (inv_withSchedule hi rest) he
  | idleC rest _ _ ht => exact ht ▸ inv_withSchedule hi rest
  | env a b rest _ ht => exact ht ▸ inv_envWrite (inv_withSchedule hi rest) a b

theorem inv_construct {p : Params} (hp : p.wf) : Inv (State.construct p) := by
  have hn : 0 < p.n := Nat.lt_of_lt_of_le Nat.two_pos hp.1.1
  have hcount : (State.construct p).count = 0 := residue_eq hn hn
  exact ⟨hp, ⟨hn, hn, rfl, fun k hk => by omega⟩, ⟨Nat.le_refl _, by simp [Config.txBaseReset], nofun, nofun⟩,
    trivial, rfl⟩

/-- Settles O49: the invariant at construction, which reset is for one choice of parameters. -/
theorem invariantHoldsAtReset : Obligations.InvariantHoldsAtReset :=
  ⟨fun _ => inv_construct, inv_construct (by decide)⟩

/-- Settles O48: the constructed state, field by field. -/
theorem resetState : Obligations.ResetState :=
  ⟨fun _ => ⟨rfl, rfl, rfl, rfl, fun _ => rfl, rfl, rfl, rfl, rfl, rfl, rfl, rfl, rfl⟩,
    Config.resetParams, by decide, rfl⟩

end Sys2Proof.Machine
end

section
/-! From a state of the invariant no step faults (10_state R38; 20_memory R61, R62): an event always has an answer, a
free port C takes every operation, and the operation in progress always has a next state. -/

namespace Sys2Proof.Machine

variable {i : Instr} {s : State}

theorem oldest_of_count_ne_zero (hr : RingInv s) (h0 : s.count ≠ 0) : ∃ b, s.oldest b :=
  (oldest_written hr h0).imp fun _ hb => ⟨hr.rd_lt, hb⟩

/-- The bytes of a burst lie inside `TXMEM`. -/
theorem burst_read (hle : s.tx.sent.toNat ≤ s.tx.len.toNat) (hrange : s.tx.base.toNat + s.tx.len.toNat ≤ 0x10000) :
    memReadRun s (s.txAddr s.tx.sent.toNat) s.burst =
      .ok ((List.range s.burst).map fun j => txByte s.txmem (s.tx.base.toNat + s.tx.sent.toNat + j)) := by
  have hburst : s.burst ≤ s.tx.len.toNat - s.tx.sent.toNat := Nat.min_le_right ..
  exact memReadRun_ok s (by unfold State.txAddr; omega)

theorem exec_push_total (hw : s.ring.wr.toNat < s.cfg.n) (b : Byte) : ∃ t, exec (.push b) s = .next t := by
  by_cases hfull : nextIndex s.cfg.n s.ring.wr = s.ring.rd
  · exact ⟨_, exec_push_reject hw hfull b⟩
  · exact ⟨_, exec_push_accept hw hfull b⟩

theorem exec_portP_total (hi : Inv s) (hp : i.port = .P) : ∃ t, exec i s = .next t := by
  cases i with
  | push b => exact exec_push_total hi.ring.wr_lt b
  | txev =>
    cases hfin : s.tx.fin with
    | true => exact ⟨_, exec_of_stepCase (.txevIdle hfin)⟩
    | false => exact ⟨_, exec_of_stepCase (.txevBurst _ hfin (burst_read hi.tx.sent_le hi.tx.in_range))⟩
  | _ => cases hp

theorem exec_idle_total (hi : Inv s) (hc : s.cop = .idle) (hp : i.port = .C) : ∃ t, exec i s = .next t := by
  cases i with
  | push | txev => cases hp
  | count => exact ⟨_, exec_of_stepCase (.count hc)⟩
  | isovf => exact ⟨_, exec_of_stepCase (.isovf hc)⟩
  | rdnb max => exact ⟨_, exec_of_stepCase (.rdnbAccept max hc)⟩
  | read max => exact ⟨_, exec_of_stepCase (.readAccept max hc)⟩
  | readf max => exact ⟨_, exec_of_stepCase (.readfAccept max hc)⟩
  | rdline size =>
    cases hl : rdlineLegal size with
    | true => exact ⟨_, exec_of_stepCase (.rdlineAccept size hc hl)⟩
    | false => exact ⟨_, exec_of_stepCase (.rdlineIllegal size hc hl)⟩
  | peekln =>
    obtain ⟨d, hd⟩ := scanFrom_cases hi.ring s.count 0 (Nat.zero_add _).le
    cases hovf : s.ring.ovf with
    | true => exact ⟨_, exec_of_stepCase (.peeklnOvf hc hovf)⟩
    | false => exact ⟨_, exec_of_stepCase (.peeklnScan d hc hovf hd)⟩
  | clear => exact ⟨_, exec_of_stepCase (.clear hc)⟩
  | start a n =>
    cases hl : startLegal a n with
    | true => exact ⟨_, exec_of_stepCase (.startAccept a n hc hl)⟩
    | false => exact ⟨_, exec_of_stepCase (.startIllegal a n hc hl)⟩
  | isfin => exact ⟨_, exec_of_stepCase (.isfin hc)⟩
  | clrtx => exact ⟨_, exec_of_stepCase (.clrtx hc)⟩
  | setmode m => exact ⟨_, exec_of_stepCase (.setmode m hc)⟩
  | setdelim b => exact ⟨_, exec_of_stepCase (.setdelim b hc)⟩

theorem oldest_of_indices (hr : RingInv s) (hne : s.ring.rd ≠ s.ring.wr) : ∃ b, s.oldest b :=
  oldest_of_count_ne_zero hr (count_ne_zero_of_indices hr hne)

theorem exec_rdlineL_total {size cnt : Word} (hi : Inv s) (hc : s.cop = .rdlineL size cnt) :
    ∃ t, exec (.rdline size) s = .next t := by
  by_cases hcnt : cnt.toNat = size.toNat - 1
  · exact ⟨_, exec_of_stepCase (.rdlineFull size cnt hc hcnt)⟩
  cases hovf : s.ring.ovf with
  | true => exact ⟨_, exec_of_stepCase (.rdlineBad size cnt hc hcnt hovf)⟩
  | false =>
    by_cases he : s.ring.rd = s.ring.wr
    · obtain ⟨fired, u, ha⟩ := asked_total s
      cases fired with
      | true => exact ⟨_, exec_of_stepCase (.rdlineTimeout size cnt u hc hcnt hovf he ha)⟩
      | false => exact ⟨_, exec_of_stepCase (.rdlineWait size cnt u hc hcnt hovf he ha)⟩
    · obtain ⟨b, hb⟩ := oldest_of_indices hi.ring he
      by_cases hdelim : b = s.ch.delim
      · exact ⟨_, exec_of_stepCase (.rdlineDelim size cnt hc hcnt hovf he (hdelim ▸ hb))⟩
      · exact ⟨_, exec_of_stepCase (.rdlineByte size cnt b hc hcnt hovf he hb hdelim)⟩

theorem exec_startS0_total {a n : Word} (hc : s.cop = .startS0 a n) : ∃ t, exec (.start a n) s = .next t := by
  cases hfin : s.tx.fin with
  | false => exact ⟨_, exec_of_stepCase (.startBusy a n hc hfin)⟩
  | true =>
    by_cases hn : n = 0#16
    · subst hn
      exact ⟨_, exec_of_stepCase (.startNone a hc hfin)⟩
    · cases hmode : s.ch.mode with
      | nonblocking => exact ⟨_, exec_of_stepCase (.startArm a n hc hfin hn hmode)⟩
      | blocking => exact ⟨_, exec_of_stepCase (.startArmWait a n hc hfin hn hmode)⟩

theorem exec_startS1_total {a n : Word} (hc : s.cop = .startS1 a n) : ∃ t, exec (.start a n) s = .next t := by
  cases hfin : s.tx.fin with
  | true => exact ⟨_, exec_of_stepCase (.startDone a n hc hfin)⟩
  | false =>
    obtain ⟨fired, u, ha⟩ := asked_total s
    cases fired with
    | true => exact ⟨_, exec_of_stepCase (.startTimeout a n u hc hfin ha)⟩
    | false => exact ⟨_, exec_of_stepCase (.startWait a n u hc hfin ha)⟩

theorem exec_turn_total (hi : Inv s) (h : s.cop.instr? = some i) : ∃ t, exec i s = .next t := by
  obtain ⟨fired, u, ha⟩ := asked_total s
  cases hc : s.cop <;> rw [hc] at h <;> cases h
  case rdnbS max =>
    by_cases h0 : BitVec.ofNat 16 (s.batch max) = 0#16
    · exact ⟨_, exec_of_stepCase (.rdnbNone max hc h0)⟩
    · exact ⟨_, exec_of_stepCase (.rdnbSome max hc h0)⟩
  case rdnbD max n cnt =>
    obtain ⟨b, hb⟩ := oldest_of_count_ne_zero hi.ring (rdnbD_count_ne_zero hi hc)
    by_cases hn : bump cnt = n
    · exact ⟨_, exec_of_stepCase (.rdnbLast max n cnt b hc hb hn)⟩
    · exact ⟨_, exec_of_stepCase (.rdnbMore max n cnt b hc hb hn)⟩
  case readW max =>
    by_cases he : s.ring.rd = s.ring.wr
    · cases fired with
      | true => exact ⟨_, exec_of_stepCase (.readTimeout max u hc he ha)⟩
      | false => exact ⟨_, exec_of_stepCase (.readWait max u hc he ha)⟩
    · exact ⟨_, exec_of_stepCase (.readGo max hc he)⟩
  case readD max cnt =>
    by_cases hend : cnt = max ∨ s.ring.rd = s.ring.wr
    · exact ⟨_, exec_of_stepCase (.readDone max cnt hc hend)⟩
    · obtain ⟨hcnt, hne⟩ := not_or.1 hend
      obtain ⟨b, hb⟩ := oldest_of_indices hi.ring hne
      exact ⟨_, exec_of_stepCase (.readDrain max cnt b hc hcnt hne hb)⟩
  case readfF max total =>
    by_cases hend : total = max
    · exact ⟨_, exec_of_stepCase (.readfDone max (hend ▸ hc))⟩
    · exact ⟨_, exec_of_stepCase (.readfInner max total hc hend)⟩
  case readfW max total cnt =>
    by_cases he : s.ring.rd = s.ring.wr
    · cases fired with
      | true => exact ⟨_, exec_of_stepCase (.readfTimeout max total cnt u hc he ha)⟩
      | false => exact ⟨_, exec_of_stepCase (.readfWait max total cnt u hc he ha)⟩
    · exact ⟨_, exec_of_stepCase (.readfGo max total cnt hc he)⟩
  case readfD max total cnt =>
    by_cases hend : total.toNat + cnt.toNat = max.toNat ∨ s.ring.rd = s.ring.wr
    · exact ⟨_, exec_of_stepCase (.readfBatch max total cnt hc hend)⟩
    · obtain ⟨hcnt, hne⟩ := not_or.1 hend
      obtain ⟨b, hb⟩ := oldest_of_indices hi.ring hne
      exact ⟨_, exec_of_stepCase (.readfDrain max total cnt b hc hcnt hne hb)⟩
  case rdlineL => exact exec_rdlineL_total hi hc
  case startS0 => exact exec_startS0_total hc
  case startS1 => exact exec_startS1_total hc

theorem presentP_total (hi : Inv s) (w : Cmd) : ∃ t, presentP w s = .next t := by
  cases hd : decode w with
  | error e => exact ⟨s, presentP_ignored (by simp [hd])⟩
  | ok i =>
    obtain hp | hp := port_cases i
    · rw [presentP_runs hd hp]
      exact exec_portP_total hi hp
    · exact ⟨s, presentP_ignored (by simp [hd, hp])⟩

theorem presentC_total (hi : Inv s) (hc : s.cop = .idle) (w : Cmd) : ∃ t, presentC w s = .next t := by
  cases hd : decode w with
  | error e => exact ⟨_, presentC_not_portC hc (by simp [hd])⟩
  | ok i =>
    obtain hp | hp := port_cases i
    · exact ⟨_, presentC_not_portC hc (by simp [hd, hp])⟩
    · rw [presentC_runs hc hd hp]
      exact exec_idle_total hi hc hp

theorem advanceC_total (hi : Inv s) : ∃ t, advanceC s = .next t := by
  cases hc : s.cop.instr? with
  | none => exact ⟨s, advanceC_idle (instr?_none.1 hc)⟩
  | some i =>
    rw [advanceC_runs hc]
    exact exec_turn_total hi hc

/-- Settles O51: each kind of input has an answer but a command at a busy port C. -/
theorem noStepFaults : Obligations.NoStepFaults := by
  intro s hi
  cases hs : s.schedule with
  | nil =>
    rw [step_nil hs]
    exact .inl (advanceC_total hi)
  | cons input rest =>
    have hi' : Inv { s with schedule := rest } := inv_withSchedule hi rest
    rw [step_cons hs]
    cases input with
    | cmdP w => exact .inl (presentP_total hi' w)
    | cmdC w =>
      by_cases hc : s.cop = .idle
      · exact .inl (presentC_total hi' hc w)
      · exact .inr ⟨presentC_busy hc, hc, w, rest, rfl⟩
    | stepC => exact .inl (advanceC_total hi')
    | envWrite a b => exact .inl ⟨_, rfl⟩

end Sys2Proof.Machine
end

section
/-! Steps and runs of the whole machine: which registers and streams they leave alone or only add to (10_state R24, R35,
R39; 20_memory R60), and the bytes of the ring over any run without `CLEAR` (20_memory R63, R69). -/

namespace Sys2Proof.Machine

variable {i : Instr} {s t u : State} {k : Nat}

/-! ## Streams, parameters and `TXMEM` -/

theorem exec_streams_grow (h : exec i s = .next t) :
    (∃ o, t.out = s.out ++ o) ∧ (∃ d, t.txd = s.txd ++ d) := by
  have kept {l : List Byte} : ∃ o, l = l ++ o := ⟨[], (List.append_nil l).symm⟩
  have byte {l : List Byte} {b : Byte} : ∃ o, l ++ [b] = l ++ o := ⟨[b], rfl⟩
  cases exec_cases h
  case txevBurst bs _ _ => exact ⟨kept, bs, rfl⟩
  case rdnbLast | rdnbMore | readDrain | readfDrain | rdlineFull | rdlineBad | rdlineByte => exact ⟨byte, kept⟩
  case rdlineDelim => exact ⟨⟨_, List.append_assoc ..⟩, kept⟩
  case startArm | startArmWait => exact ⟨kept, byte⟩
  case readTimeout ha | readWait ha | readfTimeout ha | readfWait ha | rdlineWait ha | startTimeout ha | startWait ha =>
    obtain ⟨-, -, -, -, -, -, hout, htxd, -⟩ := asked_fields ha
    exact ⟨hout ▸ kept, htxd ▸ kept⟩
  case rdlineTimeout ha =>
    obtain ⟨-, -, -, -, -, -, hout, htxd, -⟩ := asked_fields ha
    exact ⟨hout ▸ byte, htxd ▸ kept⟩
  all_goals exact ⟨kept, kept⟩

/-- Settles O46: a step that runs no operation leaves both streams. -/
theorem streamsOnlyGrow : Obligations.StreamsOnlyGrow := by
  intro s t h
  have kept {l : List Byte} : ∃ o, l = l ++ o := ⟨[], (List.append_nil l).symm⟩
  cases step_cases h with
  | opP _ _ rest _ _ _ he | opC _ _ rest _ _ _ _ he | turnC _ rest _ _ he =>
    exact exec_streams_grow (s := { s with schedule := rest }) he
  | ignoredP _ _ _ _ ht | illegalC _ _ _ _ _ ht | idleC _ _ _ ht | env _ _ _ _ ht =>
    subst ht
    exact ⟨kept, kept⟩

/-- Settles O47: `exec` keeps both, and a write by the environment names its address. -/
theorem txmemAndParametersAreNotTheBlocks : Obligations.TxmemAndParametersAreNotTheBlocks := by
  refine fun s t h => ⟨?cfg, fun hs x => ?kept, fun a b rest hs hwf x => ?written⟩
  case cfg =>
    cases step_cases h with
    | opP _ _ rest _ _ _ he | opC _ _ rest _ _ _ _ he | turnC _ rest _ _ he =>
      exact (exec_keeps_cfg_txmem_schedule he).1
    | ignoredP _ _ _ _ ht | illegalC _ _ _ _ _ ht | idleC _ _ _ ht | env _ _ _ _ ht => simp [ht]
  case kept =>
    cases step_cases h with
    | opP _ _ rest _ _ _ he | opC _ _ rest _ _ _ _ he | turnC _ rest _ _ he =>
      rw [(exec_keeps_cfg_txmem_schedule he).2.1]
    | ignoredP _ _ _ _ ht | illegalC _ _ _ _ _ ht | idleC _ _ _ ht => simp [ht]
    | env a b rest hs' _ => exact absurd hs' (hs a b rest)
  case written =>
    rw [step_cons hs] at h
    rw [← next_eq.1 h.symm]
    exact txByte_envWrite (s := { s with schedule := rest }) hwf a b x

/-! ## The overflow flag -/

/-- Settles O37: `CLEAR` and `PUSH` apart, no operation touches the flag. -/
theorem overflowIsSticky : Obligations.OverflowIsSticky := by
  intro i s t h
  by_cases hclear : i = .clear
  · subst hclear
    obtain ⟨-, rfl⟩ := execClear_next.1 h
    simp
  by_cases hpush : ∃ b, i = .push b
  · obtain ⟨b, rfl⟩ := hpush
    obtain ⟨-, ⟨hfull, rfl⟩ | ⟨hfree, rfl⟩⟩ := execPush_next.1 h
    · simp [show BitVec.ofNat 16 ((s.ring.wr.toNat + 1) % s.cfg.n) = s.ring.rd from hfull]
    · simp [show BitVec.ofNat 16 ((s.ring.wr.toNat + 1) % s.cfg.n) ≠ s.ring.rd from hfree]
  have hovf : t.ring.ovf = s.ring.ovf := by
    cases exec_ringEffect h with
    | kept hr => rw [hr]
    | rejected b hi _ _ => exact absurd ⟨b, hi⟩ hpush
    | accepted b hi _ _ => exact absurd ⟨b, hi⟩ hpush
    | drained _ _ _ _ hr _ => rw [hr]
    | cleared hi _ => exact absurd hi hclear
  simp [hovf, hclear, hpush]

/-! ## One step without `CLEAR` -/

/-- The bytes that the first `k` inputs of a schedule give to `PUSH`. -/
abbrev pushedIn (l : List Input) (k : Nat) : List Byte := (l.take k).filterMap Input.pushed

theorem pushedBy_portC (hp : i.port = .C) : pushedBy i = [] := by
  cases i with
  | push => cases hp
  | _ => rfl

theorem pushed_of_push {w : Cmd} {b : Byte} (hd : decode w = .ok (.push b)) : Input.pushed (.cmdP w) = some b := by
  simp [Input.pushed, hd]

theorem pushed_of_not_push {w : Cmd} (h : ∀ b, decode w ≠ .ok (.push b)) : Input.pushed (.cmdP w) = none := by
  simp [Input.pushed]

theorem pushedIn_cmdP {w : Cmd} {rest : List Input} (hd : decode w = .ok i) (hp : i.port = .P) :
    pushedIn (.cmdP w :: rest) 1 = pushedBy i := by
  cases i with
  | push b => simp [pushedIn, pushed_of_push hd, pushedBy]
  | txev => simp [pushedIn, pushed_of_not_push (w := w) (by simp [hd]), pushedBy]
  | _ => cases hp

theorem pushedIn_ignored {w : Cmd} {rest : List Input} (h : ∀ i, decode w = .ok i → i.port = .C) :
    pushedIn (.cmdP w :: rest) 1 = [] := by
  simp [pushedIn, pushed_of_not_push fun b hd => nomatch h _ hd]

/-- The turn of port C is never a `CLEAR`, which has no label. -/
theorem instr?_ne_clear {c : Cop} (h : c.instr? = some i) : i ≠ .clear ∧ i.port = .C := by
  cases c <;> cases h <;> exact ⟨nofun, rfl⟩

/-- A step that is no `CLEAR` runs an operation, which gets the bytes the next input pushes, or leaves the ring and
`OUT` alone. -/
theorem step_ring_cases (h : step s = .next t) (hclear : ∀ rest, s.schedule ≠ .cmdC (encode .clear) :: rest) :
    (∃ i, i ≠ .clear ∧ pushedBy i = pushedIn s.schedule 1 ∧ exec i { s with schedule := s.schedule.tail } = .next t) ∨
    (pushedIn s.schedule 1 = [] ∧ t.cfg = s.cfg ∧ t.ring = s.ring ∧ t.out = s.out ∧ t.schedule = s.schedule.tail) := by
  cases step_cases h with
  | opP w i rest hs hd hp he =>
    refine .inl ⟨i, ?_, by rw [hs, pushedIn_cmdP hd hp], by rwa [hs]⟩
    rintro rfl
    cases hp
  | ignoredP w rest hs hi ht =>
    subst ht
    exact .inr ⟨by rw [hs, pushedIn_ignored hi], rfl, rfl, rfl, by rw [hs]; rfl⟩
  | opC w i rest hs hc hd hp he =>
    refine .inl ⟨i, ?_, by rw [hs, pushedBy_portC hp]; rfl, by rwa [hs]⟩
    rintro rfl
    exact hclear rest (by rw [hs, encodeDecodeRoundTrip w .clear hd])
  | illegalC w rest hs _ _ ht =>
    subst ht
    exact .inr ⟨by rw [hs]; rfl, rfl, rfl, rfl, by rw [hs]; rfl⟩
  | turnC i rest hs hi he =>
    obtain ⟨hne, hp⟩ := instr?_ne_clear hi
    obtain hs | ⟨hs, rfl⟩ := hs <;>
      exact .inl ⟨i, hne, by rw [hs, pushedBy_portC hp]; rfl, by rwa [hs]⟩
  | idleC rest hs _ ht =>
    subst ht
    obtain hs | ⟨hs, rfl⟩ := hs <;> exact .inr ⟨by rw [hs]; rfl, rfl, rfl, rfl, by rw [hs]; rfl⟩
  | env a b rest hs ht =>
    subst ht
    exact .inr ⟨by rw [hs]; rfl, rfl, rfl, rfl, by rw [hs]; rfl⟩

section
variable (h : step s = .next t) (hclear : ∀ rest, s.schedule ≠ .cmdC (encode .clear) :: rest)
include h hclear

theorem step_fifo (hi : Inv s) : FifoStep s t (pushedIn s.schedule 1) := by
  obtain ⟨i, hne, hpush, he⟩ | ⟨hpush, hc, hr, ho, -⟩ := step_ring_cases h hclear
  · exact hpush ▸ (exec_fifo (inv_withSchedule hi _) he hne).2
  · exact hpush ▸ (fifo_of_kept hi hc hr (by rw [ho, List.append_nil]) (.inl rfl)).2

theorem step_keeps_ovf (hovf : s.ring.ovf = true) : t.ring.ovf = true := by
  obtain ⟨i, hne, -, he⟩ | ⟨-, -, hr, -⟩ := step_ring_cases h hclear
  · exact (overflowIsSticky i _ t he).2 ⟨hne, .inl hovf⟩
  · rw [hr, hovf]

theorem step_ovf_clear_before (hovf : t.ring.ovf = false) : s.ring.ovf = false :=
  Bool.eq_false_iff.2 fun hset => Bool.eq_false_iff.1 hovf (step_keeps_ovf h hclear hset)

theorem step_schedule : t.schedule = s.schedule.tail := by
  obtain ⟨i, -, -, he⟩ | ⟨-, -, -, -, hs⟩ := step_ring_cases h hclear
  · exact (exec_keeps_cfg_txmem_schedule he).2.2
  · exact hs

end

/-- Settles O44: `exec` moves the bytes, and a step that runs no operation moves none. -/
theorem eachStepKeepsFifoOrder : Obligations.EachStepKeepsFifoOrder := fun _ _ hi h hclear => step_fifo h hclear hi

/-! ## Runs without `CLEAR` -/

theorem steps_succ : steps (k + 1) s = .next t ↔ ∃ u, step s = .next u ∧ steps k u = .next t := by
  rw [steps]
  cases step s <;> simp

theorem pushedIn_succ (l : List Input) : pushedIn l (k + 1) = pushedIn l 1 ++ pushedIn l.tail k := by
  cases l with
  | nil => simp [pushedIn]
  | cons i l => rw [← List.filterMap_append]; rfl

theorem ne_cons_of_not_mem_take {x : Input} {l : List Input} (h : x ∉ l.take (k + 1)) (rest : List Input) :
    l ≠ x :: rest := by
  rintro rfl
  exact h List.mem_cons_self

theorem not_mem_take_tail {x : Input} {l : List Input} (h : x ∉ l.take (k + 1)) : x ∉ l.tail.take k := by
  cases l with
  | nil => simp
  | cons i l => exact fun hx => h (List.mem_cons_of_mem i hx)

theorem steps_keep_ovf (h : steps k s = .next t) (hclear : .cmdC (encode .clear) ∉ s.schedule.take k)
    (hovf : s.ring.ovf = true) : t.ring.ovf = true := by
  induction k generalizing s with
  | zero => exact next_eq.1 h ▸ hovf
  | succ k ih =>
    obtain ⟨u, hu, ht⟩ := steps_succ.1 h
    have hhead := ne_cons_of_not_mem_take hclear
    exact ih ht (step_schedule hu hhead ▸ not_mem_take_tail hclear) (step_keeps_ovf hu hhead hovf)

theorem steps_ovf_clear_before (h : steps k s = .next t) (hclear : .cmdC (encode .clear) ∉ s.schedule.take k)
    (hovf : t.ring.ovf = false) : s.ring.ovf = false :=
  Bool.eq_false_iff.2 fun hset => Bool.eq_false_iff.1 hovf (steps_keep_ovf h hclear hset)

/-- Settles O45, by induction on the number of steps: what the first step accepts and delivers goes before what the rest
of the run does. -/
theorem runDeliversThePushedBytesInOrder : Obligations.RunDeliversThePushedBytesInOrder := by
  intro k
  induction k with
  | zero =>
    intro s t _ h _
    obtain rfl := next_eq.1 h
    exact ⟨[], [], by simp, by simp, fun _ => rfl, [], by simp, by simp⟩
  | succ k ih =>
    intro s t hi h hclear
    obtain ⟨u, hu, ht⟩ := steps_succ.1 h
    have hhead := ne_cons_of_not_mem_take (k := k) (mt List.mem_of_mem_take hclear)
    have hsched := step_schedule hu hhead
    have htail : .cmdC (encode .clear) ∉ u.schedule := hsched ▸ mt List.mem_of_mem_tail hclear
    obtain ⟨acc, del, ending, hfifo, -, hout, -, hacc⟩ := step_fifo hu hhead hi
    obtain ⟨acc', del', hfifo', hsub', hall', grown, hout', hdel'⟩ :=
      ih u t (everyStepKeepsTheInvariant s u hi hu) ht htail
    refine ⟨acc ++ acc', del ++ del', ?order, ?sub, fun hovf => ?all, del ++ ending ++ grown, ?out, ?delivered⟩
    case order =>
      calc
        _ = del ++ (u.contents ++ acc') := by rw [← List.append_assoc, hfifo, List.append_assoc]
        _ = del ++ del' ++ t.contents := by rw [hfifo', List.append_assoc]
    case sub =>
      have hsub : acc.Sublist (pushedIn s.schedule 1) := by
        obtain rfl | ⟨rfl, -⟩ := hacc
        · exact List.Sublist.refl _
        · exact List.nil_sublist _
      show (acc ++ acc').Sublist (pushedIn s.schedule (k + 1))
      rw [pushedIn_succ, ← hsched]
      exact hsub.append hsub'
    case all =>
      have hfirst : acc = pushedIn s.schedule 1 := hacc.resolve_right fun ⟨_, _, hset⟩ =>
        Bool.eq_false_iff.1 hovf (steps_keep_ovf ht (mt List.mem_of_mem_take htail) hset)
      rw [hfirst, hall' hovf, hsched]
      exact (pushedIn_succ s.schedule).symm
    case out => rw [hout', hout]; simp
    case delivered => exact (List.sublist_append_left _ _).append hdel'

end Sys2Proof.Machine
end

section
/-! The operations of port P (40_ring_producer, 42_transmit_sequencer R172; 20_memory R74): what `PUSH` does to the
stored bytes, one by one and in a run, what one burst of `TXEV` does, and that neither depends on the mainline's side or
on the other. -/

namespace Sys2Proof.Machine

variable {i : Instr} {s t u : State} {b : Byte}

/-! ## The stored bytes -/

/-- Settles O11: a full ring keeps its bytes, another gains one at the end. -/
theorem pushAppendsToTheStoredBytes : Obligations.PushAppendsToTheStoredBytes := by
  intro s t b hp hr h
  obtain ⟨-, ⟨hfull, hcont, -⟩ | ⟨hroom, hcont, -⟩⟩ := exec_push_contents hp hr h
  · rw [hcont, if_pos hfull]
  · rw [hcont, if_neg hroom]

/-- Settles O42: both drain steps deliver the first of the stored bytes, which an accepted or rejected `PUSH` leaves
first. -/
theorem pushDoesNotDisturbTheDrainedByte : Obligations.PushDoesNotDisturbTheDrainedByte := by
  intro s u b hp hr h0 h
  obtain ⟨hru, hcases⟩ := exec_push_contents hp hr h
  have hpu : u.cfg.wf := (exec_keeps_cfg_txmem_schedule h).1 ▸ hp
  have h0u : u.count ≠ 0 := by
    have := push_count_le hp hr h
    omega
  obtain ⟨x, hx⟩ := oldest_of_count_ne_zero hr h0
  obtain ⟨y, hy⟩ := oldest_of_count_ne_zero hru h0u
  obtain ⟨-, hxs⟩ := drained_contents hp hr h0 hx
  obtain ⟨-, hyu⟩ := drained_contents hpu hru h0u hy
  have hxy : y = x := by
    obtain ⟨-, hcont, -⟩ | ⟨-, hcont, -⟩ := hcases <;> rw [hxs, hyu] at hcont <;> exact (List.cons.inj hcont).1
  subst hxy
  exact ⟨y, s.drained y, u.drained y, drainOne_oldest hx, drainOne_oldest hy, rfl, rfl⟩

/-! ## A run of `PUSH` commands (R122) -/

theorem step_push {rest : List Input} (hp : s.cfg.wf) (hr : RingInv s)
    (hs : s.schedule = .cmdP (encode (.push b)) :: rest) :
    ∃ u, step s = .next u ∧ u.schedule = rest ∧ u.cfg = s.cfg ∧ u.cop = s.cop ∧ u.ring.rd = s.ring.rd ∧ RingInv u ∧
      (s.count = s.cfg.n - 1 ∧ u.contents = s.contents ∧ u.ring.ovf = true ∨
        s.count ≠ s.cfg.n - 1 ∧ u.contents = s.contents ++ [b] ∧ u.ring.ovf = s.ring.ovf) := by
  have hr' : RingInv { s with schedule := rest } := ringInv_congr (s := s) rfl rfl hr
  obtain ⟨u, hu⟩ := exec_push_total hr'.wr_lt b
  obtain ⟨-, hrd, hsched⟩ := exec_push_frame hu
  exact ⟨u, (step_cons hs).trans ((presentP_runs (decode_encode _) rfl).trans hu), hsched,
    (exec_keeps_cfg_txmem_schedule hu).1, exec_portP_cop (s := { s with schedule := rest }) hu rfl, hrd,
    exec_push_contents (s := { s with schedule := rest }) hp hr' hu⟩

/-- A run of `PUSH` commands fills the ring up to `N - 1` bytes and drops the rest. -/
theorem steps_pushes {bs : List Byte} (hp : s.cfg.wf) (hr : RingInv s)
    (hs : s.schedule = bs.map (fun b => .cmdP (encode (.push b)))) :
    ∃ t, steps bs.length s = .next t ∧ RingInv t ∧ t.cfg = s.cfg ∧ t.cop = s.cop ∧ t.ring.rd = s.ring.rd ∧
      t.contents = s.contents ++ bs.take (s.cfg.n - 1 - s.contents.length) ∧
      (t.ring.ovf = true ↔ s.ring.ovf = true ∨ s.cfg.n ≤ s.contents.length + bs.length) := by
  induction bs generalizing s with
  | nil =>
    have hlt : ¬ s.cfg.n ≤ s.contents.length := contents_length hr ▸ (count_lt hr).not_ge
    exact ⟨s, rfl, hr, rfl, rfl, rfl, by simp, by simp [hlt]⟩
  | cons b bs ih =>
    obtain ⟨u, hu, hsched, hcfg, hcop, hrd, hru, hcases⟩ := step_push hp hr hs
    obtain ⟨t, ht, hrt, hcfg', hcop', hrd', hcont', hovf'⟩ := ih (hcfg ▸ hp) hru hsched
    have hlt := count_lt hr
    rw [← contents_length hr] at hlt hcases
    refine ⟨t, steps_succ.2 ⟨u, hu, ht⟩, hrt, hcfg'.trans hcfg, hcop'.trans hcop, hrd'.trans hrd, ?_⟩
    rw [hcont', hovf', hcfg, List.length_cons]
    obtain ⟨hfull, hcont, hovf⟩ | ⟨hroom, hcont, hovf⟩ := hcases <;> rw [hcont, hovf]
    · exact ⟨by simp [hfull], iff_of_true (.inl rfl) (.inr (by omega))⟩
    · rw [List.take_cons (by omega), List.length_append, List.append_assoc, List.length_singleton]
      exact ⟨by rw [Nat.sub_sub _ _ 1]; rfl, by rw [Nat.add_right_comm, Nat.add_assoc]⟩

/-- Settles O12: the run from an empty ring, then `COUNT` of the bytes it has stored. -/
theorem oldestBytesKeptNewestDropped : Obligations.OldestBytesKeptNewestDropped := by
  intro s bs hp hr hempty hovf hs
  have hnil : s.contents = [] := (contents_eq_nil hr).2 ((ringEmpty_iff hr).1 (ringEmpty_iff_eq.2 hempty))
  obtain ⟨t, ht, hrt, -, hcop, hrd, hcont, hflag⟩ := steps_pushes hp hr hs
  have hcont : t.contents = bs.take (s.cfg.n - 1) := by simpa [hnil] using hcont
  have hcount : t.count = min bs.length (s.cfg.n - 1) := by
    rw [← contents_length hrt, hcont, List.length_take, Nat.min_comm]
  refine ⟨t, ht, hcont, by simpa [hnil, hovf] using hflag, hrd, fun hc => ?_⟩
  have hidle := hcop.trans hc
  exact hcount ▸ complete_idle hidle .. ▸ exec_of_stepCase (.count hidle)

/-! ## `TXEV` (R172) -/

/-- Settles O28: the burst lies inside `TXMEM`, and `tx.sent` does not wrap. -/
theorem txevPushesOneBurst : Obligations.TxevPushesOneBurst := by
  refine fun s hp hle hrange => ⟨fun hfin => exec_of_stepCase (.txevIdle hfin), fun n hfin hn => ?_⟩
  obtain rfl : n = s.burst := hn
  have hburst : s.burst ≤ s.tx.len.toNat - s.tx.sent.toNat := Nat.min_le_right ..
  have hsent : (BitVec.ofNat 16 (s.tx.sent.toNat + s.burst)).toNat = s.tx.sent.toNat + s.burst :=
    Nat.mod_eq_of_lt (by have := s.tx.len.isLt; omega)
  have hall : (BitVec.ofNat 16 (s.tx.sent.toNat + s.burst) == s.tx.len) =
      decide (s.tx.sent.toNat + s.burst = s.tx.len.toNat) :=
    decide_eq_decide.2 (by rw [← BitVec.toNat_inj, hsent])
  have hadvance : s.tx.advance s.burst = { s.tx with
      sent := BitVec.ofNat 16 (s.tx.sent.toNat + s.burst),
      fin := decide (s.tx.sent.toNat + s.burst = s.tx.len.toNat) } := by
    rw [Tx.advance, hfin, Bool.false_or, hall]
  exact hadvance ▸ exec_of_stepCase (.txevBurst _ hfin (burst_read hle hrange))

/-! ## Independence (R207, R74) -/

/-- Settles O36: neither operation reads or writes the mainline's side; a burst reads `TXMEM` alone. -/
theorem eventLeavesTheMainlineUntouched : Obligations.EventLeavesTheMainlineUntouched := by
  intro i s t hp h
  cases exec_cases h
  case pushReject b hw hfull =>
    exact ⟨rfl, rfl, rfl, rfl, rfl, rfl, rfl, rfl, rfl, rfl, fun _ _ _ _ _ _ _ =>
      exec_of_stepCase (.pushReject b hw hfull)⟩
  case pushAccept b hw hfree =>
    exact ⟨rfl, rfl, rfl, rfl, rfl, rfl, rfl, rfl, rfl, rfl, fun _ _ _ _ _ _ _ =>
      exec_of_stepCase (.pushAccept b hw hfree)⟩
  case txevIdle hfin =>
    exact ⟨rfl, rfl, rfl, rfl, rfl, rfl, rfl, rfl, rfl, rfl, fun _ _ _ _ _ _ _ =>
      exec_of_stepCase (.txevIdle hfin)⟩
  case txevBurst bs hfin hbs =>
    refine ⟨rfl, rfl, rfl, rfl, rfl, rfl, rfl, rfl, rfl, rfl, fun c r o ch l y k => ?_⟩
    have hread := memReadRun_congr (s := s)
      (t := { s with cop := c, res := r, out := o, ch := ch, schedule := l, answers := y, draws := k }) rfl
    exact exec_of_stepCase (.txevBurst bs hfin ((hread ..).trans hbs))
  all_goals cases hp

/-- `PUSH` reads and writes the ring alone: with another sequencer and `TXD` it answers the same ring. -/
theorem exec_push_of_tx (h : exec (.push b) s = .next t) (x : Tx) (d : List Byte) :
    exec (.push b) { s with tx := x, txd := d } = .next { t with tx := x, txd := d } := by
  obtain ⟨hw, ⟨hfull, rfl⟩ | ⟨hfree, rfl⟩⟩ := execPush_next.1 h
  · exact exec_push_reject (s := { s with tx := x, txd := d }) hw hfull b
  · exact exec_push_accept (s := { s with tx := x, txd := d }) hw hfree b

/-- `TXEV` reads and writes the sequencer's side alone: with another ring it answers the same sequencer and `TXD`. -/
theorem exec_txev_of_ring (h : exec .txev s = .next u) (r : Ring) :
    exec .txev { s with ring := r } = .next { u with ring := r } := by
  obtain ⟨hfin, rfl⟩ | ⟨hfin, bs, hbs, rfl⟩ := execTxev_next.1 h
  · exact exec_of_stepCase (.txevIdle hfin)
  · have hread := memReadRun_congr (s := s) (t := { s with ring := r }) rfl
    exact exec_of_stepCase (s := { s with ring := r }) (.txevBurst bs hfin ((hread ..).trans hbs))

theorem exec_push_changes_ring (h : exec (.push b) s = .next t) : t = { s with ring := t.ring } := by
  obtain ⟨-, ⟨-, rfl⟩ | ⟨-, rfl⟩⟩ := execPush_next.1 h <;> rfl

theorem exec_txev_changes_tx (h : exec .txev s = .next u) : u = { s with tx := u.tx, txd := u.txd } := by
  obtain ⟨-, rfl⟩ | ⟨-, _, -, rfl⟩ := execTxev_next.1 h <;> rfl

/-- Settles O41: each writes its own side, and neither reads the other's. -/
theorem pushAndTxevCommute : Obligations.PushAndTxevCommute := by
  intro s t u b hpush htxev
  have ht := exec_push_changes_ring hpush
  have hu := exec_txev_changes_tx htxev
  refine ⟨{ u with ring := t.ring }, ?_, ?_⟩
  · rw [ht]
    exact exec_txev_of_ring htxev t.ring
  · have h := exec_push_of_tx hpush u.tx u.txd
    rw [← hu] at h
    rw [h, ht, hu]

end Sys2Proof.Machine
end

section
/-! Port C: the queries and what they answer (41_ring_consumer R130, R138, R140; 20_memory R66), the labelled steps of
`RDLINE` (R137), who changes `tx.fin` (10_state R29), the statuses an operation ends with (60_exceptions R201), and when
the timeout predicate is asked (R133). -/

namespace Sys2Proof.Machine

variable {i : Instr} {s t u : State}

/-! ## Queries -/

/-- Settles O14: both tests are about the indices alone. -/
theorem countTellsEmptyAndFull : Obligations.CountTellsEmptyAndFull := by
  intro s hp hrd hwr hc
  have hcount : s.count = _ := residue_eq hwr hrd
  refine ⟨BitVec.ofNat 16 s.count, complete_idle hc .. ▸ exec_of_stepCase (.count hc), ?_, ?_⟩
  · rw [← BitVec.toNat_inj, ← BitVec.toNat_inj, count_word_toNat hp, BitVec.toNat_zero]
    split at hcount <;> omega
  · have hn := hp.1.1
    rw [count_word_toNat hp, mod_wrap (by omega)]
    split at hcount <;> split <;> omega

/-- Settles O23: the indices and the flag that `CLEAR` leaves. -/
theorem clearThenCountAndIsovfAnswerZero : Obligations.ClearThenCountAndIsovfAnswerZero := by
  intro s t hp h
  obtain ⟨-, rfl⟩ := execClear_next.1 h
  have hn : 0 < s.cfg.n := Nat.lt_of_lt_of_le Nat.two_pos hp.1.1
  have hcount : (complete { s with ring := s.ring.cleared } .ok 0#16).count = 0 := residue_eq hn hn
  refine ⟨?_, exec_of_stepCase (.isovf rfl)⟩
  have h := exec_of_stepCase (s := complete { s with ring := s.ring.cleared } .ok 0#16) (.count rfl)
  rwa [hcount] at h

theorem scanFrom_complete (s : State) (st : Status) (v : Word) (k : Nat) :
    ∀ d, scanFrom (complete s st v) d k = scanFrom s d k := by
  induction k with
  | zero => exact fun _ => rfl
  | succ k ih => exact fun d => by rw [scanFrom, scanFrom, ih]; rfl

/-- Settles O43: a completion leaves what each query reads. -/
theorem queriesAreIdempotent : Obligations.QueriesAreIdempotent := by
  rintro i s t (rfl | rfl | rfl | rfl) h
  · obtain ⟨hc, rfl⟩ := execCount_next.1 h
    exact ⟨complete_idle hc .., exec_of_stepCase (.count rfl)⟩
  · obtain ⟨hc, rfl⟩ := execIsovf_next.1 h
    exact ⟨complete_idle hc .., exec_of_stepCase (.isovf rfl)⟩
  · obtain ⟨hc, rfl⟩ := execIsfin_next.1 h
    exact ⟨complete_idle hc .., exec_of_stepCase (.isfin rfl)⟩
  · obtain ⟨hc, ⟨hovf, rfl⟩ | ⟨hovf, d, hd, rfl⟩⟩ := execPeekln_next.1 h
    · exact ⟨complete_idle hc .., exec_of_stepCase (.peeklnOvf rfl hovf)⟩
    · exact ⟨complete_idle hc .., exec_of_stepCase (.peeklnScan d rfl hovf ((scanFrom_complete ..).trans hd))⟩

/-! ## `RDLINE` -/

/-- Settles O20: the operand test, then the five outcomes at `L` in the order of its tests. -/
theorem rdlineSteps : Obligations.RdlineSteps := by
  refine fun s size => ⟨fun hc h0 => ?illegal, fun cnt hc hcnt => ?full, fun cnt hc hcnt hovf => ?bad,
    fun cnt t hc hcnt hovf he ha => ?timeout, fun cnt t hc hcnt hovf he ha => ?wait,
    fun cnt b hc hcnt hovf hne hrd hb hdelim => ?delim, fun cnt b hc hcnt hovf hne hrd hb hdelim => ?byte⟩
  case illegal =>
    subst h0
    exact complete_idle hc .. ▸ exec_rdline_zero hc
  case full => exact exec_of_stepCase (.rdlineFull size cnt hc hcnt)
  case bad => exact exec_of_stepCase (.rdlineBad size cnt hc hcnt hovf)
  case timeout => exact exec_of_stepCase (.rdlineTimeout size cnt t hc hcnt hovf he ha)
  case wait => exact exec_of_stepCase (.rdlineWait size cnt t hc hcnt hovf he ha)
  case delim =>
    subst hdelim
    exact exec_of_stepCase (.rdlineDelim size cnt hc hcnt hovf hne ⟨hrd, hb⟩)
  case byte => exact exec_of_stepCase (.rdlineByte size cnt b hc hcnt hovf hne ⟨hrd, hb⟩ hdelim)

/-! ## `tx.fin` -/

/-- Settles O32: the writers of the sequencer, one by one. -/
theorem onlyTheseOperationsChangeFin : Obligations.OnlyTheseOperationsChangeFin := by
  refine fun i s t h => ⟨fin_cleared_only_by_start h, fun hs ht => ?_⟩
  cases exec_txEffect h with
  | kept hx => simp [hx, hs] at ht
  | burst hi _ hx =>
    refine .inl ⟨hi, ?_⟩
    rw [hx, Tx.advance_fin, hs, Bool.false_or, beq_iff_eq] at ht
    rw [hx]
    exact ht
  | armed a n _ _ _ _ hx => simp [hx] at ht
  | cancelled hi _ => exact .inr (.inl hi)
  | abandoned a n s' hi hc _ hidle hres _ => exact .inr (.inr ⟨a, n, hi, hc, hidle, hres⟩)

/-! ## Statuses -/

@[simp] theorem resStatus_resultWord (st : Status) (v : Word) : resStatus (resultWord st v) = st.code :=
  BitVec.extractLsb'_append_eq_left

@[simp] theorem resValue_resultWord (st : Status) (v : Word) : resValue (resultWord st v) = v :=
  BitVec.extractLsb'_append_eq_right

/-- Settles O6: the status codes stand above the value, which is the low half. -/
theorem resultWordLayout : Obligations.ResultWordLayout := fun v =>
  ⟨rfl, rfl, rfl, rfl, rfl, rfl, fun st => resValue_resultWord st v⟩

/-- Settles O38: an operation that goes on or waits does not end; each other case ends with its row of the table. -/
theorem statusTableIsComplete : Obligations.StatusTableIsComplete := by
  intro i s t hp h hidle
  cases exec_cases h
  case pushReject | pushAccept | txevIdle | txevBurst => cases hp
  case rdnbAccept | rdnbSome | rdnbMore | readAccept | readGo | readDrain | readfAccept | readfInner | readfGo |
      readfBatch | readfDrain | rdlineAccept | rdlineByte | startAccept | startArmWait => cases hidle
  case readWait hc _ ha | readfWait hc _ ha | rdlineWait hc _ _ _ ha | startWait hc _ ha =>
    obtain ⟨-, -, -, -, hcop, -⟩ := asked_fields ha
    simp [hcop, hc] at hidle
  case isovf hc =>
    refine ⟨.ok, flagWord s.ring.ovf, rfl, nofun, nofun, nofun, nofun, nofun,
      fun _ => ⟨rfl, ?_, ?_, complete_idle hc ..⟩⟩ <;> cases s.ring.ovf <;> decide
  case peeklnOvf hc hovf =>
    exact ⟨.overflow, 0#16, rfl, nofun, fun _ => ⟨rfl, hovf, rfl, complete_idle hc ..⟩, nofun, nofun, nofun, nofun⟩
  case readTimeout max u hc he ha =>
    exact ⟨.timeout, 0#16, rfl, nofun, nofun, fun _ => ⟨u, ha, .inl ⟨max, rfl, hc, he, rfl, rfl⟩⟩, nofun, nofun, nofun⟩
  case readfTimeout max total cnt u hc he ha =>
    exact ⟨.timeout, total, rfl, nofun, nofun, fun _ => ⟨u, ha, .inr (.inl ⟨max, total, cnt, rfl, hc, he, rfl, rfl⟩)⟩,
      nofun, nofun, nofun⟩
  case rdlineTimeout size cnt u hc _ _ he ha =>
    obtain ⟨-, -, -, -, -, -, hout, -⟩ := asked_fields ha
    exact ⟨.timeout, cnt, rfl, nofun, nofun, fun _ => ⟨u, ha, .inr (.inr (.inl ⟨size, cnt, rfl, hc, he, rfl,
      by rw [← hout]; rfl⟩))⟩, nofun, nofun, nofun⟩
  case startTimeout a n u hc hfin ha =>
    obtain ⟨-, -, htx, -⟩ := asked_fields ha
    exact ⟨.timeout, u.tx.sent, rfl, nofun, nofun, fun _ => ⟨u, ha, .inr (.inr (.inr ⟨a, n, rfl, hc, hfin, by rw [htx],
      by rw [← htx]; rfl⟩))⟩, nofun, nofun, nofun⟩
  case startBusy a n hc hfin =>
    exact ⟨.busy, 0#16, rfl, fun _ => ⟨a, n, rfl, hc, hfin, rfl, rfl⟩, nofun, nofun, nofun, nofun, nofun⟩
  case rdlineBad size cnt hc _ hovf =>
    exact ⟨.badline, cnt, rfl, nofun, nofun, nofun, fun _ => ⟨size, cnt, rfl, hc, hovf, rfl, rfl⟩, nofun, nofun⟩
  case rdlineIllegal size hc hl =>
    obtain rfl : size = 0#16 := by simpa [rdlineLegal, ← BitVec.toNat_inj] using hl
    exact ⟨.illegal, 0#16, rfl, nofun, nofun, nofun, nofun, fun _ => ⟨.inl rfl, rfl, complete_idle hc ..⟩, nofun⟩
  case startIllegal a n hc hl =>
    have hlong : 0x10000 < a.toNat + n.toNat := Nat.lt_of_not_le (of_decide_eq_false hl)
    exact ⟨.illegal, 0#16, rfl, nofun, nofun, nofun, nofun,
      fun _ => ⟨.inr ⟨a, n, rfl, hlong⟩, rfl, complete_idle hc ..⟩, nofun⟩
  all_goals exact ⟨.ok, _, rfl, nofun, nofun, nofun, nofun, nofun, nofun⟩

/-! ## The timeout predicate -/

/-- One call takes the next listed answer or one free value, and none without a predicate. -/
theorem asked_takes_one {fired : Bool} {waiting : Prop} (ha : Asked s fired u) (hw : waiting)
    (hans : t.answers = u.answers) (hdraws : t.draws = u.draws) :
    (t.answers = s.answers ∧ t.draws = s.draws) ∨ (s.cfg.hasTimeout = true ∧
      ((∃ b, s.answers = b :: t.answers ∧ t.draws = s.draws) ∨
        (s.answers = [] ∧ t.answers = [] ∧ t.draws = s.draws + 1)) ∧ waiting) := by
  rw [hans, hdraws]
  obtain ⟨-, -, rfl⟩ | ⟨hto, rest, hlisted, rfl⟩ | ⟨hto, hnone, -, rfl⟩ := ha
  · exact .inl ⟨rfl, rfl⟩
  · exact .inr ⟨hto, .inl ⟨fired, hlisted, rfl⟩, hw⟩
  · exact .inr ⟨hto, .inr ⟨hnone, hnone, rfl⟩, hw⟩

/-- Without a predicate no call fires. -/
theorem hasTimeout_of_asked (ha : Asked s true u) : s.cfg.hasTimeout = true := by
  obtain ⟨-, hfired, -⟩ | ⟨hto, -⟩ | ⟨hto, -⟩ := ha
  · cases hfired
  · exact hto
  · exact hto

theorem code_eq_timeout {st : Status} (h : st.code = Status.timeout.code) : st = .timeout := by
  revert h
  cases st <;> decide

/-- Settles O39: the eight wait cases take one answer each; that only a call that fires ends an operation with `TIMEOUT`
is a row of the status table. -/
theorem predicateAskedOnlyWhileWaiting : Obligations.PredicateAskedOnlyWhileWaiting := by
  refine fun i s t h => ⟨?asked, fun hp hidle hstatus => ?ends⟩
  case asked =>
    cases exec_cases h
    case readTimeout max u hc he ha => exact asked_takes_one ha (.inl ⟨.inl ⟨max, hc, rfl⟩, he⟩) rfl rfl
    case readWait max hc he ha => exact asked_takes_one ha (.inl ⟨.inl ⟨max, hc, rfl⟩, he⟩) rfl rfl
    case readfTimeout max total cnt u hc he ha =>
      exact asked_takes_one ha (.inl ⟨.inr (.inl ⟨max, total, cnt, hc, rfl⟩), he⟩) rfl rfl
    case readfWait max total cnt hc he ha =>
      exact asked_takes_one ha (.inl ⟨.inr (.inl ⟨max, total, cnt, hc, rfl⟩), he⟩) rfl rfl
    case rdlineTimeout size cnt u hc hcnt hovf he ha =>
      exact asked_takes_one ha (.inl ⟨.inr (.inr ⟨size, cnt, hc, rfl, hcnt, hovf⟩), he⟩) rfl rfl
    case rdlineWait size cnt hc hcnt hovf he ha =>
      exact asked_takes_one ha (.inl ⟨.inr (.inr ⟨size, cnt, hc, rfl, hcnt, hovf⟩), he⟩) rfl rfl
    case startTimeout a n u hc hfin ha => exact asked_takes_one ha (.inr ⟨a, n, hc, rfl, hfin⟩) rfl rfl
    case startWait a n hc hfin ha => exact asked_takes_one ha (.inr ⟨a, n, hc, rfl, hfin⟩) rfl rfl
    all_goals exact .inl ⟨rfl, rfl⟩
  case ends =>
    obtain ⟨st, v, hres, -, -, htimeout, -⟩ := statusTableIsComplete i s t hp h hidle
    rw [hres, resStatus_resultWord] at hstatus
    obtain ⟨u, ha, -⟩ := htimeout (code_eq_timeout hstatus)
    exact hasTimeout_of_asked ha

theorem steps_fixed (h : step s = .next s) (k : Nat) : steps k s = .next s := by
  induction k with
  | zero => rfl
  | succ k ih => exact steps_succ.2 ⟨s, h, ih⟩

/-- Settles O40: the next step is a wait iteration whose predicate does not fire, and it leads to the same state. -/
theorem blockedOperationWaitsForEver : Obligations.BlockedOperationWaitsForEver := by
  intro s k hs hto hblocked
  have ha : Asked s false s := .inl ⟨hto, rfl, rfl⟩
  refine steps_fixed ((step_nil hs).trans ?_) k
  have waits {i : Instr} (hop : s.cop.instr? = some i) (h : StepCase s i s) : advanceC s = .next s :=
    (advanceC_runs hop).trans (exec_of_stepCase h)
  rcases hblocked with ⟨⟨max, hc⟩, he⟩ | ⟨⟨max, total, cnt, hc⟩, he⟩ | ⟨⟨size, cnt, hc, hcnt⟩, hovf, he⟩ |
    ⟨⟨a, n, hc⟩, hfin⟩
  · exact waits (by rw [hc]; rfl) (.readWait max s hc he ha)
  · exact waits (by rw [hc]; rfl) (.readfWait max total cnt s hc he ha)
  · exact waits (by rw [hc]; rfl) (.rdlineWait size cnt s hc hcnt hovf he ha)
  · exact waits (by rw [hc]; rfl) (.startWait a n s hc hfin ha)

end Sys2Proof.Machine
end

section
/-! Runs of `RDNB` and `READ` with no step of port P between (41_ring_consumer R134, R135): the bytes a batch
delivers. -/

namespace Sys2Proof.Machine

variable {s t u : State} {b : Byte}

/-- `t` is `s` after its `m` oldest bytes have been delivered, in what a run of the consumer alone leaves. -/
structure Delivered (s t : State) (m : Nat) : Prop where
  out : t.out = s.out ++ s.contents.take m
  contents : t.contents = s.contents.drop m
  answers : t.answers = s.answers
  draws : t.draws = s.draws
  tx : t.tx = s.tx
  txd : t.txd = s.txd
  ch : t.ch = s.ch
  ovf : t.ring.ovf = s.ring.ovf
  storage : t.ring.storage = s.ring.storage

theorem delivered_none (s : State) (st : Status) (v : Word) : Delivered s (complete s st v) 0 :=
  ⟨by simp, rfl, rfl, rfl, rfl, rfl, rfl, rfl, rfl⟩

/-- A byte drained at a label, then the rest of the run. -/
theorem Delivered.cons (hi : Inv s) (h0 : s.count ≠ 0) (hb : s.oldest b) {m : Nat} (h : Delivered (s.drained b) t m) :
    Delivered s t (m + 1) := by
  obtain ⟨-, hcont⟩ := drained_contents hi.params hi.ring h0 hb
  refine ⟨?_, ?_, h.answers, h.draws, h.tx, h.txd, h.ch, h.ovf, h.storage⟩
  · rw [h.out, hcont, List.take_succ_cons, List.append_assoc]
    rfl
  · rw [h.contents, hcont, List.drop_succ_cons]

/-- What is delivered does not depend on the label of port C or on the schedule. -/
theorem Delivered.of_control {c : Cop} {l : List Input} {m : Nat}
    (h : Delivered { s with cop := c, schedule := l } t m) : Delivered s t m :=
  ⟨h.out, h.contents, h.answers, h.draws, h.tx, h.txd, h.ch, h.ovf, h.storage⟩

theorem step_turn {i : Instr} (hs : s.schedule = []) (hi : s.cop.instr? = some i) (h : exec i s = .next t) :
    step s = .next t :=
  (step_nil hs).trans ((advanceC_runs hi).trans h)

/-- `RDNB` at `D` delivers the bytes it has fixed, one a step, and completes with the last. -/
theorem steps_rdnbD {j : Nat} {max n cnt : Word} (hi : Inv s) (hs : s.schedule = []) (hc : s.cop = .rdnbD max n cnt)
    (hn : n.toNat = cnt.toNat + (j + 1)) :
    ∃ t, steps (j + 1) s = .next t ∧ t.cop = .idle ∧ t.res = resultWord .ok n ∧ Delivered s t (j + 1) := by
  induction j generalizing s cnt with
  | zero =>
    have h0 := rdnbD_count_ne_zero hi hc
    obtain ⟨b, hb⟩ := oldest_of_count_ne_zero hi.ring h0
    have hlast : bump cnt = n := BitVec.eq_of_toNat_eq (by rw [bump_toNat (limit := n.toNat) (by omega) n.isLt, hn])
    have hstep := step_turn hs (by rw [hc]; rfl) (exec_of_stepCase (.rdnbLast max n cnt b hc hb hlast))
    exact ⟨_, steps_succ.2 ⟨_, hstep, rfl⟩, rfl, rfl, (delivered_none _ .ok n).cons hi h0 hb⟩
  | succ j ih =>
    have h0 := rdnbD_count_ne_zero hi hc
    obtain ⟨b, hb⟩ := oldest_of_count_ne_zero hi.ring h0
    have hbump : (bump cnt).toNat = cnt.toNat + 1 := bump_toNat (limit := n.toNat) (by omega) n.isLt
    have hmore : bump cnt ≠ n := fun h => by
      rw [h] at hbump
      omega
    have hexec := exec_of_stepCase (.rdnbMore max n cnt b hc hb hmore)
    obtain ⟨t, ht, hidle, hres, hdel⟩ := ih (exec_inv hi hexec) hs rfl (by omega)
    exact ⟨t, steps_succ.2 ⟨_, step_turn hs (by rw [hc]; rfl) hexec, ht⟩, hidle, hres,
      (Delivered.of_control hdel).cons hi h0 hb⟩

/-- `RDNB` at `S` fixes `min(max, count)` bytes and delivers them. -/
theorem steps_rdnbS {max : Word} (hi : Inv s) (hs : s.schedule = []) (hc : s.cop = .rdnbS max) :
    ∃ t, steps (min max.toNat s.count + 1) s = .next t ∧ t.cop = .idle ∧
      t.res = resultWord .ok (BitVec.ofNat 16 (min max.toNat s.count)) ∧ Delivered s t (min max.toNat s.count) := by
  cases hm : min max.toNat s.count with
  | zero =>
    have hexec := exec_of_stepCase (.rdnbNone max hc ((batch_word_eq_zero_iff max).2 hm))
    exact ⟨_, steps_succ.2 ⟨_, step_turn hs (by rw [hc]; rfl) hexec, rfl⟩, rfl, rfl, delivered_none s .ok 0#16⟩
  | succ j =>
    have hbatch : s.batch max = j + 1 := hm
    have hexec := exec_of_stepCase (.rdnbSome max hc (mt (batch_word_eq_zero_iff max).1 (by omega)))
    obtain ⟨t, ht, hidle, hres, hdel⟩ :=
      steps_rdnbD (j := j) (exec_inv hi hexec) hs rfl (by rw [batch_word_toNat, hbatch]; simp)
    exact ⟨t, steps_succ.2 ⟨_, step_turn hs (by rw [hc]; rfl) hexec, ht⟩, hidle, hbatch ▸ hres,
      Delivered.of_control hdel⟩

/-- `READ` at `D` drains a byte a turn until its limit or an empty ring ends the batch. -/
theorem steps_readD {j : Nat} {max cnt : Word} (hi : Inv s) (hs : s.schedule = []) (hc : s.cop = .readD max cnt)
    (hj : min (max.toNat - cnt.toNat) s.count = j) :
    ∃ t, steps (j + 1) s = .next t ∧ t.cop = .idle ∧ t.res = resultWord .ok (BitVec.ofNat 16 (cnt.toNat + j)) ∧
      Delivered s t j := by
  induction j generalizing s cnt with
  | zero =>
    have hle : cnt.toNat ≤ max.toNat := by simpa [CopInv, hc] using hi.cop
    have hend : cnt = max ∨ s.ring.rd = s.ring.wr := by
      rw [← ringEmpty_iff_eq, ringEmpty_iff hi.ring, ← BitVec.toNat_inj]
      omega
    have hexec := exec_of_stepCase (.readDone max cnt hc hend)
    exact ⟨_, steps_succ.2 ⟨_, step_turn hs (by rw [hc]; rfl) hexec, rfl⟩, rfl, by simp, delivered_none s .ok cnt⟩
  | succ j ih =>
    have h0 : s.count ≠ 0 := by omega
    have hne : ¬ s.ring.rd = s.ring.wr := by rwa [← ringEmpty_iff_eq, ringEmpty_iff hi.ring]
    have hcnt : cnt ≠ max := by
      rintro rfl
      omega
    have hbump : (bump cnt).toNat = cnt.toNat + 1 := bump_toNat (limit := max.toNat) (by omega) max.isLt
    obtain ⟨b, hb⟩ := oldest_of_count_ne_zero hi.ring h0
    have hcount : (s.drained b).count + 1 = s.count := count_drain hi.params hi.ring h0 rfl rfl rfl
    have hexec := exec_of_stepCase (.readDrain max cnt b hc hcnt hne hb)
    obtain ⟨t, ht, hidle, hres, hdel⟩ := ih (exec_inv hi hexec) hs rfl
      (show min _ (s.drained b).count = j by omega)
    refine ⟨t, steps_succ.2 ⟨_, step_turn hs (by rw [hc]; rfl) hexec, ht⟩, hidle, ?_,
      (Delivered.of_control hdel).cons hi h0 hb⟩
    rw [hres, hbump, Nat.add_right_comm, Nat.add_assoc]

/-- A command presented at a free port C is taken up in one step. -/
theorem step_command {i : Instr} {rest : List Input} (hs : s.schedule = .cmdC (encode i) :: rest) (hc : s.cop = .idle)
    (hp : i.port = .C) (h : exec i { s with schedule := rest } = .next t) : step s = .next t :=
  (step_cons hs).trans ((presentC_runs (s := { s with schedule := rest }) hc (decode_encode i) hp).trans h)

/-- A limit above the count takes all that is stored. -/
theorem take_drop_min_count (hr : RingInv s) (m : Nat) :
    s.contents.take (min m s.count) = s.contents.take m ∧ s.contents.drop (min m s.count) = s.contents.drop m := by
  simp [← contents_length hr, List.take_eq_take_iff, List.drop_eq_drop_iff]

/-- Settles O24: the command is taken up, the batch is fixed at `S`, and one byte is drained at each turn at `D`. -/
theorem rdnbDeliversWhatIsStored : Obligations.RdnbDeliversWhatIsStored := by
  intro s max hi hc hs
  have htaken := step_command hs hc rfl (exec_of_stepCase (s := { s with schedule := [] }) (.rdnbAccept max hc))
  obtain ⟨t, ht, hidle, hres, hdel⟩ := steps_rdnbS (everyStepKeepsTheInvariant _ _ hi htaken) rfl rfl
  have hdel : Delivered s t (min max.toNat s.count) :=
    Delivered.of_control (c := .rdnbS max) (l := []) hdel
  obtain ⟨htake, hdrop⟩ := take_drop_min_count hi.ring max.toNat
  refine ⟨t, ?_, hidle, hres, htake ▸ hdel.out, hdrop ▸ hdel.contents, hdel.answers, hdel.draws, hdel.tx, hdel.txd,
    hdel.ch, hdel.ovf, hdel.storage⟩
  rw [Nat.add_comm]
  exact steps_succ.2 ⟨_, htaken, ht⟩

/-- Settles O25: the command is taken up, goes on at `W` because the ring is not empty, and drains its batch at `D`. -/
theorem readDrainsOneBatch : Obligations.ReadDrainsOneBatch := by
  intro s max hi hc h0 hs
  have hne : s.ring.rd ≠ s.ring.wr := by rwa [ne_eq, ← ringEmpty_iff_eq, ringEmpty_iff hi.ring]
  have htaken := step_command hs hc rfl (exec_of_stepCase (s := { s with schedule := [] }) (.readAccept max hc))
  have hi₁ := everyStepKeepsTheInvariant _ _ hi htaken
  have hgo := exec_of_stepCase (s := gotoLabel { s with schedule := [] } (.readW max)) (.readGo max rfl hne)
  obtain ⟨t, ht, hidle, hres, hdel⟩ := steps_readD (exec_inv hi₁ hgo) rfl rfl rfl
  have hdel : Delivered s t (min max.toNat s.count) :=
    Delivered.of_control (c := .readD max 0#16) (l := []) hdel
  obtain ⟨htake, hdrop⟩ := take_drop_min_count hi.ring max.toNat
  refine ⟨t, ?_, hidle, ?_, htake ▸ hdel.out, hdrop ▸ hdel.contents, hdel.answers, hdel.draws⟩
  · rw [Nat.add_comm]
    exact steps_succ.2 ⟨_, htaken, steps_succ.2 ⟨_, step_turn rfl rfl hgo, ht⟩⟩
  · rw [hres]
    exact congrArg (fun m => resultWord .ok (BitVec.ofNat 16 m)) (Nat.zero_add _)

end Sys2Proof.Machine
end

section
/-! The events a transmission needs (42_transmit_sequencer R175): a run of bursts in closed form, and `START` before
it. -/

namespace Sys2Proof.Machine

variable {s t u : State}

/-- `t` is `s` after `e` transmit-slot events: the bytes they have pushed, in order, whether the transmission is
finished, and that nothing else has changed. -/
structure BurstsSent (s t : State) (e : Nat) : Prop where
  base : t.tx.base = s.tx.base
  len : t.tx.len = s.tx.len
  sent : t.tx.sent.toNat = s.tx.sent.toNat + min (e * s.cfg.k) (s.tx.len.toNat - s.tx.sent.toNat)
  fin : t.tx.fin = true ↔ s.tx.fin = true ∨ 0 < e ∧ s.tx.len.toNat - s.tx.sent.toNat ≤ e * s.cfg.k
  txd : t.txd = s.txd ++ (List.range (min (e * s.cfg.k) (s.tx.len.toNat - s.tx.sent.toNat))).map
    (fun j => txByte s.txmem (s.tx.base.toNat + s.tx.sent.toNat + j))
  frame : t = { s with schedule := t.schedule, tx := t.tx, txd := t.txd }

/-- A transmission that is finished while armed has pushed all its bytes; another is within its buffer. -/
structure Armed (s : State) : Prop where
  params : s.cfg.wf
  sent_le : s.tx.sent.toNat ≤ s.tx.len.toNat
  in_range : s.tx.base.toNat + s.tx.len.toNat ≤ 0x10000
  fin_sent : s.tx.fin = true → s.tx.sent = s.tx.len

theorem BurstsSent.armed {e : Nat} (h : BurstsSent s t e) (ha : Armed s) : Armed t := by
  have hle := ha.sent_le
  refine ⟨by rw [h.frame]; exact ha.params, by rw [h.sent, h.len]; omega, by rw [h.base, h.len]; exact ha.in_range,
    fun hfin => BitVec.eq_of_toNat_eq ?_⟩
  rw [h.sent, h.len]
  obtain hfin | ⟨-, hall⟩ := h.fin.1 hfin
  · rw [ha.fin_sent hfin]
    omega
  · omega

theorem BurstsSent.trans {d e : Nat} (ha : Armed s) (h : BurstsSent s u d) (h' : BurstsSent u t e) :
    BurstsSent s t (d + e) := by
  have hle := ha.sent_le
  have hcfg : u.cfg = s.cfg := by rw [h.frame]
  have hmem : u.txmem = s.txmem := by rw [h.frame]
  have hsent := h'.sent
  have hfin := h'.fin
  have htxd := h'.txd
  rw [h.sent, h.len, hcfg] at hsent hfin
  rw [h.txd, h.sent, h.len, h.base, hcfg, hmem] at htxd
  refine ⟨h'.base.trans h.base, h'.len.trans h.len, ?_, ?_, ?_, by rw [h'.frame, h.frame]⟩
  all_goals rw [Nat.add_mul]
  · omega
  · have hleft : s.tx.len.toNat - (s.tx.sent.toNat + min (d * s.cfg.k) (s.tx.len.toNat - s.tx.sent.toNat)) ≤
        e * s.cfg.k ↔ s.tx.len.toNat - s.tx.sent.toNat ≤ d * s.cfg.k + e * s.cfg.k := by omega
    rw [hfin, h.fin, hleft, or_assoc]
    refine or_congr_right ?_
    obtain rfl | he := Nat.eq_zero_or_pos e
    · simp
    · omega
  · rw [htxd, show min (d * s.cfg.k + e * s.cfg.k) (s.tx.len.toNat - s.tx.sent.toNat) =
      min (d * s.cfg.k) (s.tx.len.toNat - s.tx.sent.toNat) + min (e * s.cfg.k) (s.tx.len.toNat -
        (s.tx.sent.toNat + min (d * s.cfg.k) (s.tx.len.toNat - s.tx.sent.toNat))) by omega,
      List.range_add, List.map_append, List.map_map, List.append_assoc]
    simp only [Function.comp_def, Nat.add_assoc]

/-- One event. -/
theorem step_txev {rest : List Input} (ha : Armed s) (hs : s.schedule = .cmdP (encode .txev) :: rest) :
    ∃ t, step s = .next t ∧ t.schedule = rest ∧ BurstsSent s t 1 := by
  have hle := ha.sent_le
  have hlen := s.tx.len.isLt
  obtain ⟨hidle, hsending⟩ := txevPushesOneBurst { s with schedule := rest } ha.params ha.sent_le ha.in_range
  have hstep {t : State} (h : exec .txev { s with schedule := rest } = .next t) : step s = .next t :=
    (step_cons hs).trans ((presentP_runs (decode_encode _) rfl).trans h)
  cases hf : s.tx.fin with
  | true =>
    refine ⟨_, hstep (hidle hf), rfl, rfl, rfl, ?_, ?_, ?_, rfl⟩ <;> simp [ha.fin_sent hf, hf]
  | false =>
    refine ⟨_, hstep (hsending _ hf rfl), rfl, rfl, rfl, ?_, ?_, ?_, rfl⟩
    · rw [Nat.one_mul, BitVec.toNat_ofNat]
      dsimp only
      omega
    · simp only [decide_eq_true_eq, hf, Bool.false_eq_true, false_or, Nat.one_mul]
      omega
    · rw [Nat.one_mul]

theorem steps_txevs {e : Nat} (ha : Armed s) (hs : s.schedule = List.replicate e (.cmdP (encode .txev))) :
    ∃ t, steps e s = .next t ∧ t.schedule = [] ∧ BurstsSent s t e := by
  induction e generalizing s with
  | zero => exact ⟨s, rfl, hs, rfl, rfl, by simp, by simp, by simp, rfl⟩
  | succ e ih =>
    obtain ⟨u, hu, hsched, hfirst⟩ := step_txev ha hs
    obtain ⟨t, ht, hnil, hrest⟩ := ih (hfirst.armed ha) hsched
    exact ⟨t, steps_succ.2 ⟨u, hu, ht⟩, hnil, Nat.add_comm 1 e ▸ hfirst.trans ha hrest⟩

/-- `n - 1` bytes in bursts of `K` need `⌈(n - 1) / K⌉` events, and one event at least. -/
theorem events_needed_iff {k n e : Nat} (hk : 0 < k) : max 1 ((n - 1 + (k - 1)) / k) ≤ e ↔ 0 < e ∧ n - 1 ≤ e * k := by
  have hceil : (n - 1 + (k - 1)) / k ≤ e ↔ n - 1 ≤ e * k := by
    rw [← Nat.lt_succ_iff, Nat.div_lt_iff_lt_mul hk, Nat.succ_mul]
    omega
  rw [max_le_iff, hceil, Nat.one_le_iff_ne_zero, Nat.pos_iff_ne_zero]

/-- `START` taken up and its step `S0`: the sequencer is armed, the priming byte pushed, and the operation completes or
waits as the mode says. -/
theorem steps_start_arms {a n : Word} {rest : List Input} (hc : s.cop = .idle) (hfin : s.tx.fin = true) (hn : n ≠ 0#16)
    (hrange : a.toNat + n.toNat ≤ 0x10000) (hs : s.schedule = .cmdC (encode (.start a n)) :: .stepC :: rest) :
    ∃ t, steps 2 s = .next t ∧ t = { s with
        tx := Tx.arm a n, txd := s.txd ++ [txByte s.txmem a.toNat], schedule := rest, cop := t.cop, res := t.res } ∧
      (s.ch.mode = .nonblocking → t.cop = .idle ∧ t.res = resultWord .ok 0#16) ∧
      (s.ch.mode = .blocking → t.cop = .startS1 a n ∧ t.res = s.res) := by
  have htaken := step_command hs hc rfl (exec_of_stepCase (s := { s with schedule := .stepC :: rest })
    (.startAccept a n hc (decide_eq_true hrange)))
  have harms {t : State} (h : exec (.start a n) { s with cop := .startS0 a n, schedule := rest } = .next t) :
      steps 2 s = .next t :=
    steps_succ.2 ⟨_, htaken, steps_succ.2 ⟨t, (step_cons (i := .stepC) (rest := rest) rfl).trans h, rfl⟩⟩
  cases hmode : s.ch.mode with
  | nonblocking =>
    exact ⟨_, harms (exec_of_stepCase (.startArm a n rfl hfin hn hmode)), rfl, fun _ => ⟨rfl, rfl⟩, nofun⟩
  | blocking =>
    exact ⟨_, harms (exec_of_stepCase (.startArmWait a n rfl hfin hn hmode)), rfl, nofun, fun _ => ⟨rfl, rfl⟩⟩

/-- Settles O31: the taking up and the arming step, then the events; a blocking `START` that finds the flag set
completes. -/
theorem transmissionNeedsThatManyEvents : Obligations.TransmissionNeedsThatManyEvents := by
  intro s a n e hp hc hfin hn hrange hs
  have hpos : 1 ≤ n.toNat := Nat.one_le_iff_ne_zero.2 (BitVec.toNat_ne.1 hn)
  obtain ⟨u, harms, hu, hnon, hblock⟩ := steps_start_arms hc hfin hn hrange hs
  have htx : u.tx = Tx.arm a n := by rw [hu]
  have hcfg : u.cfg = s.cfg := by rw [hu]
  have ha : Armed u := ⟨hcfg ▸ hp, by rw [htx]; exact hpos, by rw [htx]; exact hrange, by rw [htx]; nofun⟩
  obtain ⟨t, ht, hnil, hsent⟩ := steps_txevs ha (by rw [hu])
  have hcop : t.cop = u.cop := by rw [hsent.frame]
  have hres : t.res = u.res := by rw [hsent.frame]
  have hbytes : 1 + min (e * s.cfg.k) (n.toNat - 1) = min (1 + e * s.cfg.k) n.toNat := by omega
  refine ⟨t, (steps_add harms).trans ht, ?fin, ?sent, ?txd, by rw [hsent.frame, hu], by rw [hsent.frame, hu],
    fun hmode => ?nonblocking, fun hmode => ?blocking⟩
  case fin =>
    rw [events_needed_iff hp.2.1, hsent.fin, hcfg, htx]
    simp
  case sent =>
    rw [hsent.sent, hcfg, htx]
    exact hbytes
  case txd =>
    have htxd : u.txd = s.txd ++ [txByte s.txmem a.toNat] := by rw [hu]
    have hmem : u.txmem = s.txmem := by rw [hu]
    rw [hsent.txd, hcfg, htx, htxd, hmem, ← hbytes, List.range_add, List.map_append, List.map_map, List.append_assoc]
    simp [Function.comp_def, Nat.add_assoc]
  case nonblocking => rw [hcop, hres]; exact hnon hmode
  case blocking =>
    obtain ⟨hwaits, hkept⟩ := hblock hmode
    have hlen : t.tx.len = n := by rw [hsent.len, htx, Tx.arm_len]
    refine ⟨hcop.trans hwaits, hres.trans hkept, fun hdone => ?_⟩
    have hexec := exec_of_stepCase (.startDone a n (hcop.trans hwaits) hdone)
    rw [hlen] at hexec
    exact step_turn hnil (by rw [hcop, hwaits]; rfl) hexec

end Sys2Proof.Machine
end

section
/-! `RDLINE` after `PEEKLN` (41_ring_consumer R139). The schedule lists events, writes of the environment and turns of
port C in any order: an event leaves the operation in progress as it is and only adds to the stored bytes, and each turn
takes `RDLINE` one byte on. -/

namespace Sys2Proof.Machine

variable {s t u : State} {k : Nat} {l : List Input}

/-! ## Steps that take no turn of an operation -/

/-- None of the next `k` inputs is a command at port C. -/
def NoCommandIn (l : List Input) (k : Nat) : Prop := ∀ w, .cmdC w ∉ l.take k

theorem NoCommandIn.head (h : NoCommandIn l (k + 1)) (w : Cmd) : ∀ rest, l ≠ .cmdC w :: rest :=
  ne_cons_of_not_mem_take (h w)

theorem NoCommandIn.tail (h : NoCommandIn l (k + 1)) : NoCommandIn l.tail k := fun w => not_mem_take_tail (h w)

/-- `t` is `s` after steps that took no turn of an operation at port C: the mainline's side is as it was, and the pushed
bytes stand after the stored ones unless one was rejected. -/
structure Waited (s t : State) (pushed : List Byte) : Prop where
  cop : t.cop = s.cop
  res : t.res = s.res
  out : t.out = s.out
  ch : t.ch = s.ch
  answers : t.answers = s.answers
  draws : t.draws = s.draws
  ovf : t.ring.ovf = false → s.ring.ovf = false
  contents : t.ring.ovf = false → t.contents = s.contents ++ pushed

theorem Waited.trans {p q : List Byte} (h : Waited s u p) (h' : Waited u t q) : Waited s t (p ++ q) where
  cop := h'.cop.trans h.cop
  res := h'.res.trans h.res
  out := h'.out.trans h.out
  ch := h'.ch.trans h.ch
  answers := h'.answers.trans h.answers
  draws := h'.draws.trans h.draws
  ovf h0 := h.ovf (h'.ovf h0)
  contents h0 := by rw [h'.contents h0, h.contents (h'.ovf h0), List.append_assoc]

/-- The next step is no turn of an operation: port C is free, or the next input is not its turn. -/
def NoTurn (s : State) : Prop := s.cop = .idle ∨ ∃ i rest, s.schedule = i :: rest ∧ i ≠ .stepC

theorem step_frame_of_noTurn (h : step s = .next t) (hq : ∀ w rest, s.schedule ≠ .cmdC w :: rest) (hn : NoTurn s) :
    t.cop = s.cop ∧ t.res = s.res ∧ t.out = s.out ∧ t.ch = s.ch ∧ t.answers = s.answers ∧ t.draws = s.draws := by
  cases step_cases h with
  | opP w i rest _ _ hp he =>
    obtain ⟨hcop, hres, hout, hch, -, -, -, -, hans, hdraws, -⟩ := eventLeavesTheMainlineUntouched i _ t hp he
    exact ⟨hcop, hres, hout, hch, hans, hdraws⟩
  | ignoredP _ _ _ _ ht | idleC _ _ _ ht | env _ _ _ _ ht =>
    subst ht
    exact ⟨rfl, rfl, rfl, rfl, rfl, rfl⟩
  | opC w _ rest hs | illegalC w rest hs => exact absurd hs (hq w rest)
  | turnC i rest hs hi _ =>
    obtain hc | ⟨j, l, hj, hne⟩ := hn
    · rw [hc] at hi
      cases hi
    · obtain hs | ⟨hs, -⟩ := hs <;> rw [hs] at hj <;> cases hj
      exact absurd rfl hne

theorem contents_of_fifo {pushed : List Byte} (h : FifoStep s t pushed) (hout : t.out = s.out)
    (hovf : t.ring.ovf = false) : t.contents = s.contents ++ pushed := by
  obtain ⟨acc, del, ending, hfifo, -, hgrown, -, hacc⟩ := h
  rw [hout, List.append_assoc, List.self_eq_append_right, List.append_eq_nil_iff] at hgrown
  obtain ⟨rfl, -⟩ := hgrown
  obtain rfl | ⟨-, -, hset⟩ := hacc
  · exact hfifo.symm
  · simp [hset] at hovf

theorem step_waited (hi : Inv s) (h : step s = .next t) (hq : ∀ w rest, s.schedule ≠ .cmdC w :: rest)
    (hn : NoTurn s) : Waited s t (pushedIn s.schedule 1) := by
  obtain ⟨hcop, hres, hout, hch, hans, hdraws⟩ := step_frame_of_noTurn h hq hn
  exact ⟨hcop, hres, hout, hch, hans, hdraws, step_ovf_clear_before h (hq _),
    contents_of_fifo (step_fifo h (hq _) hi) hout⟩

/-! ## Runs without a command at port C -/

theorem steps_total (hi : Inv s) (hq : NoCommandIn s.schedule k) : ∃ t, steps k s = .next t := by
  induction k generalizing s with
  | zero => exact ⟨s, rfl⟩
  | succ k ih =>
    obtain ⟨u, hu⟩ := (noStepFaults s hi).resolve_right fun ⟨_, _, w, rest, hs⟩ => hq.head w rest hs
    obtain ⟨t, ht⟩ := ih (everyStepKeepsTheInvariant s u hi hu) (step_schedule hu (hq.head _) ▸ hq.tail)
    exact ⟨t, steps_succ.2 ⟨u, hu, ht⟩⟩

theorem steps_inv (hi : Inv s) (h : steps k s = .next t) : Inv t := by
  induction k generalizing s with
  | zero => exact next_eq.1 h ▸ hi
  | succ k ih =>
    obtain ⟨u, hu, ht⟩ := steps_succ.1 h
    exact ih (everyStepKeepsTheInvariant s u hi hu) ht

theorem steps_schedule (hq : NoCommandIn s.schedule k) (h : steps k s = .next t) : t.schedule = s.schedule.drop k := by
  induction k generalizing s with
  | zero => exact next_eq.1 h ▸ rfl
  | succ k ih =>
    obtain ⟨u, hu, ht⟩ := steps_succ.1 h
    have hsched := step_schedule hu (hq.head _)
    rw [ih (hsched ▸ hq.tail) ht, hsched, List.drop_tail]

/-- A free port C stays free while no command comes. -/
theorem steps_waited (hi : Inv s) (hc : s.cop = .idle) (hq : NoCommandIn s.schedule k) (h : steps k s = .next t) :
    Waited s t (pushedIn s.schedule k) := by
  induction k generalizing s with
  | zero =>
    obtain rfl := next_eq.1 h
    exact ⟨rfl, rfl, rfl, rfl, rfl, rfl, id, fun _ => by simp [pushedIn]⟩
  | succ k ih =>
    obtain ⟨u, hu, ht⟩ := steps_succ.1 h
    have hsched := step_schedule hu (hq.head _)
    have hfirst := step_waited hi hu hq.head (.inl hc)
    have hrest := ih (everyStepKeepsTheInvariant s u hi hu) (hfirst.cop.trans hc) (hsched ▸ hq.tail) ht
    rw [pushedIn_succ, ← hsched]
    exact hfirst.trans hrest

/-- Without a `PUSH` the flag stays clear. -/
theorem steps_ovf_clear (h : steps k s = .next t) (hclear : .cmdC (encode .clear) ∉ s.schedule.take k)
    (hpush : pushedIn s.schedule k = []) (hovf : s.ring.ovf = false) : t.ring.ovf = false := by
  induction k generalizing s with
  | zero => exact next_eq.1 h ▸ hovf
  | succ k ih =>
    obtain ⟨u, hu, ht⟩ := steps_succ.1 h
    have hhead := ne_cons_of_not_mem_take hclear
    have hsched := step_schedule hu hhead
    rw [pushedIn_succ, List.append_eq_nil_iff] at hpush
    refine ih ht (hsched ▸ not_mem_take_tail hclear) (hsched ▸ hpush.2) ?_
    obtain ⟨i, -, hi, he⟩ | ⟨-, -, hr, -⟩ := step_ring_cases hu hhead
    · refine Bool.eq_false_iff.2 fun hset => ?_
      obtain ⟨b, rfl⟩ := ovf_set_only_by_push he hovf hset
      simp [pushedBy, hpush.1] at hi
    · rw [hr, hovf]

/-! ## The turns of `RDLINE` -/

/-- The turns port C has in `k` steps: those the schedule lists, and those after its end (log 6). -/
def turnsIn (l : List Input) (k : Nat) : Nat := (l.take k).count .stepC + (k - l.length)

theorem turnsIn_nil : turnsIn [] k = k := by simp [turnsIn]

theorem turnsIn_turn : turnsIn (.stepC :: l) (k + 1) = turnsIn l k + 1 := by
  simp [turnsIn, Nat.add_right_comm]

theorem turnsIn_other {i : Input} (h : i ≠ .stepC) : turnsIn (i :: l) (k + 1) = turnsIn l k := by
  simp [turnsIn, h]

theorem turnsIn_length_add (l : List Input) (k : Nat) : turnsIn l (l.length + k) = l.count .stepC + k := by
  simp [turnsIn, List.take_of_length_le]

/-- `RDLINE` with `cnt` bytes handed out takes the bytes `line` and stops, after so many turns: at its size limit, or
with a delimiter (R137). -/
inductive LineEnds (size : Nat) (delim : Byte) : Nat → List Byte → Nat → Prop
  | limit {cnt : Nat} : cnt = size - 1 → LineEnds size delim cnt [] 1
  | delim {cnt : Nat} : cnt ≠ size - 1 → LineEnds size delim cnt [delim] 1
  | byte {cnt turns : Nat} {b : Byte} {line : List Byte} : cnt ≠ size - 1 → b ≠ delim →
      LineEnds size delim (cnt + 1) line turns → LineEnds size delim cnt (b :: line) (turns + 1)

/-- `t` is `s` after `RDLINE`, with `cnt` bytes handed out before, has handed out `line` and the terminator; `rest` is
stored. -/
structure LineDelivered (s t : State) (cnt : Nat) (line rest : List Byte) : Prop where
  cop : t.cop = .idle
  res : t.res = resultWord .ok (BitVec.ofNat 16 (cnt + line.length))
  out : t.out = s.out ++ line ++ [0x00#8]
  contents : t.contents = rest
  answers : t.answers = s.answers
  draws : t.draws = s.draws

section
variable {cnt : Nat} {line rest pushed : List Byte}

/-- What is delivered does not depend on the label of port C or on the schedule. -/
theorem LineDelivered.of_control {c : Cop} {l : List Input}
    (h : LineDelivered { s with cop := c, schedule := l } t cnt line rest) : LineDelivered s t cnt line rest :=
  ⟨h.cop, h.res, h.out, h.contents, h.answers, h.draws⟩

theorem LineDelivered.after_event (h : Waited s u pushed) (h' : LineDelivered u t cnt line rest) :
    LineDelivered s t cnt line rest :=
  ⟨h'.cop, h'.res, h.out ▸ h'.out, h'.contents, h'.answers.trans h.answers, h'.draws.trans h.draws⟩

theorem LineDelivered.then_waits (h : LineDelivered s u cnt line rest) (h' : Waited u t pushed)
    (hovf : t.ring.ovf = false) : LineDelivered s t cnt line (rest ++ pushed) :=
  ⟨h'.cop.trans h.cop, h'.res.trans h.res, h'.out.trans h.out, by rw [h'.contents hovf, h.contents],
    h'.answers.trans h.answers, h'.draws.trans h.draws⟩

theorem LineDelivered.cons {b : Byte} (h : LineDelivered u t (cnt + 1) line rest) (hout : u.out = s.out ++ [b])
    (hans : u.answers = s.answers) (hdraws : u.draws = s.draws) : LineDelivered s t cnt (b :: line) rest :=
  ⟨h.cop, by rw [h.res, List.length_cons, Nat.add_right_comm, Nat.add_assoc], by rw [h.out, hout]; simp, h.contents,
    h.answers.trans hans, h.draws.trans hdraws⟩

/-- `u` is `s` after `RDLINE` has handed out the byte `b` and goes on; `rest` is stored. -/
structure ByteDelivered (s u : State) (size cnt : Word) (b : Byte) (rest : List Byte) : Prop where
  cop : u.cop = .rdlineL size (bump cnt)
  ch : u.ch = s.ch
  out : u.out = s.out ++ [b]
  contents : u.contents = rest
  answers : u.answers = s.answers
  draws : u.draws = s.draws

/-- The first of the stored bytes is the one at `ring.rd`. -/
theorem oldest_of_contents_cons (hi : Inv s) {b : Byte} (h : s.contents = b :: rest) :
    s.ring.rd ≠ s.ring.wr ∧ s.oldest b ∧ (s.drained b).contents = rest := by
  have h0 : s.count ≠ 0 := by
    rw [← contents_length hi.ring, h]
    exact Nat.succ_ne_zero _
  obtain ⟨x, hx⟩ := oldest_of_count_ne_zero hi.ring h0
  obtain ⟨-, hcont⟩ := drained_contents hi.params hi.ring h0 hx
  obtain ⟨rfl, rfl⟩ := List.cons.inj (hcont.symm.trans h)
  exact ⟨by rwa [ne_eq, ← ringEmpty_iff_eq, ringEmpty_iff hi.ring], hx, rfl⟩

/-- One turn at `L`: the line ends, or its first byte is handed out. -/
theorem exec_rdline_turn {size cnt : Word} {turns : Nat} (hi : Inv s) (hc : s.cop = .rdlineL size cnt)
    (hovf : s.ring.ovf = false) (hline : LineEnds size.toNat s.ch.delim cnt.toNat line turns)
    (hcont : s.contents = line ++ rest) : ∃ u, exec (.rdline size) s = .next u ∧
      (LineDelivered s u cnt.toNat line rest ∨ ∃ b line' turns', line = b :: line' ∧ turns = turns' + 1 ∧
        (bump cnt).toNat = cnt.toNat + 1 ∧ LineEnds size.toNat s.ch.delim (cnt.toNat + 1) line' turns' ∧
        ByteDelivered s u size cnt b (line' ++ rest)) := by
  have hbound : cnt.toNat + 1 ≤ size.toNat := by simpa [CopInv, hc] using hi.cop
  have hbump (hne : cnt.toNat ≠ size.toNat - 1) : (bump cnt).toNat = cnt.toNat + 1 :=
    bump_toNat (limit := size.toNat) (by omega) size.isLt
  cases hline with
  | limit hcnt =>
    refine ⟨_, exec_of_stepCase (.rdlineFull size cnt hc hcnt), .inl ⟨rfl, by simp, ?_, hcont, rfl, rfl⟩⟩
    rw [List.append_nil]
    rfl
  | delim hcnt =>
    obtain ⟨hne, hb, hl⟩ := oldest_of_contents_cons hi hcont
    refine ⟨_, exec_of_stepCase (.rdlineDelim size cnt hc hcnt hovf hne hb), .inl ⟨rfl, ?_, rfl, hl, rfl, rfl⟩⟩
    rw [stopLine_res, List.length_singleton, ← hbump hcnt, BitVec.ofNat_toNat, BitVec.setWidth_eq]
  | @byte _ turns' b line' hcnt hdelim hline' =>
    obtain ⟨hne, hb, hl⟩ := oldest_of_contents_cons hi hcont
    exact ⟨_, exec_of_stepCase (.rdlineByte size cnt b hc hcnt hovf hne hb hdelim),
      .inr ⟨b, line', turns', rfl, rfl, hbump hcnt, hline', rfl, rfl, rfl, hl, rfl, rfl⟩⟩

/-- The next step is a turn of port C: listed, or after the end of the schedule (log 6). -/
def TurnNext (l : List Input) : Prop := l = [] ∨ ∃ rest, l = .stepC :: rest

theorem other_of_not_turnNext (h : ¬ TurnNext l) : ∃ i rest, l = i :: rest ∧ i ≠ .stepC := by
  cases l with
  | nil => exact absurd (.inl rfl) h
  | cons i rest => exact ⟨i, rest, rfl, fun hi => h (.inr ⟨rest, by rw [hi]⟩)⟩

theorem TurnNext.inputs (h : TurnNext l) (k : Nat) :
    pushedIn l 1 = [] ∧ turnsIn l (k + 1) = turnsIn l.tail k + 1 := by
  obtain rfl | ⟨rest, rfl⟩ := h
  · exact ⟨rfl, turnsIn_nil.trans (congrArg (· + 1) turnsIn_nil.symm)⟩
  · exact ⟨rfl, turnsIn_turn⟩

theorem TurnNext.step_eq {i : Instr} (h : TurnNext s.schedule) (hi : s.cop.instr? = some i) :
    step s = exec i { s with schedule := s.schedule.tail } := by
  obtain hs | ⟨rest, hs⟩ := h
  · rw [step_nil hs, advanceC_runs hi, hs, List.tail_nil, ← hs]
  · rw [step_cons hs, hs]
    exact advanceC_runs (s := { s with schedule := rest }) hi

/-- `RDLINE` in progress, with turns enough to end its line, delivers it, whatever events come between. -/
theorem steps_rdline {size cnt : Word} {turns : Nat} (hi : Inv s) (hc : s.cop = .rdlineL size cnt)
    (hq : NoCommandIn s.schedule k) (hline : LineEnds size.toNat s.ch.delim cnt.toNat line turns)
    (hcont : s.contents = line ++ rest) (hturns : turns ≤ turnsIn s.schedule k) (h : steps k s = .next t)
    (hovf : t.ring.ovf = false) : LineDelivered s t cnt.toNat line (rest ++ pushedIn s.schedule k) := by
  induction k generalizing s cnt line rest turns with
  | zero =>
    have h0 : turnsIn s.schedule 0 = 0 := by simp [turnsIn]
    cases hline <;> omega
  | succ k ih =>
    obtain ⟨u, hu, ht⟩ := steps_succ.1 h
    have hsched := step_schedule hu (hq.head _)
    have hqu : NoCommandIn u.schedule k := hsched ▸ hq.tail
    have hiu := everyStepKeepsTheInvariant s u hi hu
    have hovfu := steps_ovf_clear_before ht (hqu _) hovf
    rw [pushedIn_succ, ← hsched]
    by_cases hturn : TurnNext s.schedule
    · obtain ⟨hpush, hleft⟩ := hturn.inputs k
      have hovfs := step_ovf_clear_before hu (hq.head _) hovfu
      obtain ⟨v, hv, hcases⟩ := exec_rdline_turn (s := { s with schedule := s.schedule.tail })
        (inv_withSchedule hi _) hc hovfs hline hcont
      rw [hturn.step_eq (by rw [hc]; rfl)] at hu
      obtain rfl : u = v := next_eq.1 (hv.symm.trans hu)
      rw [hpush, List.nil_append]
      obtain hdone | ⟨b, line', turns', rfl, rfl, hbump, hline', hbyte⟩ := hcases
      · exact (LineDelivered.of_control hdone).then_waits (steps_waited hiu hdone.cop hqu ht) hovf
      · have hrest := ih hiu hbyte.cop hqu (by rw [hbyte.ch, hbump]; exact hline') hbyte.contents
          (by rw [hsched]; omega) ht
        rw [hbump] at hrest
        exact hrest.cons hbyte.out hbyte.answers hbyte.draws
    · obtain ⟨i, l, hs, hne⟩ := other_of_not_turnNext hturn
      have hwait := step_waited hi hu hq.head (.inr ⟨i, l, hs, hne⟩)
      have hleft : turnsIn s.schedule (k + 1) = turnsIn u.schedule k := by
        rw [hsched, hs]
        exact turnsIn_other hne
      have hrest := ih hiu (hwait.cop.trans hc) hqu (hwait.ch ▸ hline)
        (by rw [hwait.contents hovfu, hcont, List.append_assoc]) (hleft ▸ hturns) ht
      rw [← List.append_assoc]
      exact hrest.after_event hwait

end

/-! ## The line that `PEEKLN` has found -/

/-- The answer `(OK, d + 1)` of `PEEKLN` names the nearest delimiter (R138). -/
theorem peekln_nearest {d : Nat} (hi : Inv s) (hc : s.cop = .idle) (hovf : s.ring.ovf = false) (hd : d < s.count)
    (h : exec .peekln s = .next { s with res := resultWord .ok (BitVec.ofNat 16 (d + 1)) }) :
    s.slotByte d = some s.ch.delim ∧ ∀ j < d, s.slotByte j ≠ some s.ch.delim := by
  have hsmall : s.count < 65536 := by
    have := count_lt hi.ring
    have := hi.params.1.2
    omega
  have value {m : Nat} (hm : m < 65536)
      (h' : exec .peekln s = .next { s with res := resultWord .ok (BitVec.ofNat 16 m) }) : m = d + 1 := by
    have hres : resultWord .ok (BitVec.ofNat 16 m) = resultWord .ok (BitVec.ofNat 16 (d + 1)) :=
      congrArg State.res (next_eq.1 (h.symm.trans h'))
    have hvalue := congrArg resValue hres
    simp only [resValue_resultWord, ← BitVec.toNat_inj, BitVec.toNat_ofNat] at hvalue
    omega
  obtain ⟨-, hfound, hnone⟩ := peeklnAnswersTheNearestDelimiter s hi.params hi.ring hc
  by_cases hex : ∃ e, e < s.count ∧ s.slotByte e = some s.ch.delim
  · obtain ⟨hlt, he⟩ := Nat.find_spec hex
    have hmin (j : Nat) (hj : j < Nat.find hex) : s.slotByte j ≠ some s.ch.delim := fun hb =>
      Nat.find_min hex hj ⟨hj.trans hlt, hb⟩
    have hed : Nat.find hex + 1 = d + 1 := value (by omega) (hfound _ hovf hlt he hmin)
    obtain rfl : Nat.find hex = d := by omega
    exact ⟨he, hmin⟩
  · have := value (by omega) (hnone hovf fun j hj hb => hex ⟨j, hj, hb⟩)
    omega

/-- Bytes before the size limit and other than the delimiter do not end the line. -/
theorem LineEnds.after_bytes {size cnt turns : Nat} {delim : Byte} {front line : List Byte} (hmem : delim ∉ front)
    (hle : cnt + front.length ≤ size - 1) (h : LineEnds size delim (cnt + front.length) line turns) :
    LineEnds size delim cnt (front ++ line) (front.length + turns) := by
  induction front generalizing cnt with
  | nil => simpa using h
  | cons b front ih =>
    rw [List.length_cons] at hle h ⊢
    rw [List.mem_cons, not_or] at hmem
    rw [Nat.add_right_comm]
    exact .byte (by omega) (Ne.symm hmem.1)
      (ih hmem.2 (by omega) (by rwa [Nat.add_assoc cnt 1, Nat.add_comm 1 front.length]))

/-- `RDLINE` as the only command at port C, with turns enough to end its line. -/
theorem steps_only_rdline {size : Word} {before after : List Input} {line rest : List Byte} {turns : Nat} (hi : Inv s)
    (hc : s.cop = .idle) (hovf : s.ring.ovf = false)
    (hs : s.schedule = before ++ .cmdC (encode (.rdline size)) :: after) (hq : ∀ w, .cmdC w ∉ before ++ after)
    (hsize : size.toNat ≠ 0) (hline : LineEnds size.toNat s.ch.delim 0 line turns) (hcont : s.contents = line ++ rest)
    (hturns : turns ≤ after.count .stepC + k) :
    ∃ t, steps (s.schedule.length + k) s = .next t ∧
      (s.schedule.filterMap Input.pushed = [] → t.ring.ovf = false) ∧
      (t.ring.ovf = false → LineDelivered s t 0 line (rest ++ s.schedule.filterMap Input.pushed)) := by
  have hqs : NoCommandIn s.schedule before.length := fun w => by
    rw [hs, List.take_left]
    exact fun hw => hq w (List.mem_append_left _ hw)
  have hqa : NoCommandIn after (after.length + k) := fun w hw =>
    hq w (List.mem_append_right _ (List.mem_of_mem_take hw))
  obtain ⟨u, hu⟩ := steps_total hi hqs
  have hiu := steps_inv hi hu
  have hwait := steps_waited hi hc hqs hu
  have hcu := hwait.cop.trans hc
  have hsu : u.schedule = .cmdC (encode (.rdline size)) :: after := by rw [steps_schedule hqs hu, hs, List.drop_left]
  have hstep := step_command hsu hcu rfl (exec_of_stepCase (s := { u with schedule := after })
    (.rdlineAccept size hcu (decide_eq_true hsize)))
  have hiv := everyStepKeepsTheInvariant u _ hiu hstep
  obtain ⟨t, ht⟩ := steps_total hiv hqa
  have hfirst : pushedIn s.schedule before.length = before.filterMap Input.pushed := by
    rw [pushedIn, hs, List.take_left]
  have hlast : pushedIn after (after.length + k) = after.filterMap Input.pushed := by
    rw [pushedIn, List.take_of_length_le (Nat.le_add_right ..)]
  have hall : s.schedule.filterMap Input.pushed = before.filterMap Input.pushed ++ after.filterMap Input.pushed := by
    rw [hs, List.filterMap_append]
    rfl
  refine ⟨t, ?run, fun hpush => ?clear, fun hovft => ?delivered⟩
  case run =>
    have hlen : s.schedule.length + k = before.length + (after.length + k + 1) := by
      rw [hs, List.length_append, List.length_cons]
      omega
    rw [hlen, steps_add hu]
    exact steps_succ.2 ⟨_, hstep, ht⟩
  case clear =>
    rw [hall, List.append_eq_nil_iff] at hpush
    have hovfu := steps_ovf_clear hu (hqs _) (hfirst.trans hpush.1) hovf
    exact steps_ovf_clear ht (hqa _) (hlast.trans hpush.2) hovfu
  case delivered =>
    have hovfu : u.ring.ovf = false :=
      steps_ovf_clear_before (s := gotoLabel { u with schedule := after } (.rdlineL size 0#16)) ht (hqa _) hovft
    have hcontu : u.contents = line ++ (rest ++ before.filterMap Input.pushed) := by
      rw [hwait.contents hovfu, hfirst, hcont, List.append_assoc]
    have hdel := steps_rdline hiv rfl hqa (hwait.ch ▸ hline) hcontu
      (turnsIn_length_add after k ▸ hturns) ht hovft
    rw [hall, ← List.append_assoc, ← hlast]
    exact (LineDelivered.of_control (s := u) (c := .rdlineL size 0#16) (l := after) hdel).after_event hwait

/-- Settles O26: `PEEKLN` has found the nearest delimiter, so the line ends there or, before it, at the size limit. -/
theorem peeklnThenRdlineDeliversTheLine : Obligations.PeeklnThenRdlineDeliversTheLine := by
  intro s size d k before after hi hc hovf hd hpeek hs hq
  obtain ⟨hdelim, hnearest⟩ := peekln_nearest hi hc hovf hd hpeek
  have hlen := contents_length hi.ring
  have hat : s.contents[d]? = some s.ch.delim := by rw [contents_getElem? hi.ring, if_pos hd, hdelim]
  have hbefore {m : Nat} (hm : m ≤ d) : s.ch.delim ∉ s.contents.take m := by
    intro hmem
    obtain ⟨j, hj⟩ := List.mem_iff_getElem?.1 hmem
    rw [List.getElem?_take] at hj
    split at hj
    · rw [contents_getElem? hi.ring, if_pos (by omega)] at hj
      exact hnearest j (by omega) hj
    · cases hj
  refine ⟨fun hfits hturns => ?whole, fun hpos hshort hturns => ?cut⟩
  case whole =>
    have hsplit : s.contents.take (d + 1) = s.contents.take d ++ [s.ch.delim] := by
      rw [List.take_add_one, hat]
      rfl
    have htake : (s.contents.take d).length = d := by rw [List.length_take]; omega
    have hline := LineEnds.after_bytes (hbefore (Nat.le_refl d)) (by omega)
      (.delim (size := size.toNat) (cnt := 0 + (s.contents.take d).length) (by omega))
    rw [← hsplit, htake] at hline
    obtain ⟨t, ht, hclear, hdel⟩ := steps_only_rdline hi hc hovf hs hq (by omega) hline
      (List.take_append_drop ..).symm hturns
    have hlength : 0 + (s.contents.take (d + 1)).length = d + 1 := by rw [List.length_take]; omega
    exact ⟨t, ht, hclear, fun h0 => ⟨(hdel h0).cop, hlength ▸ (hdel h0).res, (hdel h0).out, (hdel h0).contents,
      (hdel h0).answers, (hdel h0).draws⟩⟩
  case cut =>
    have hlength : 0 + (s.contents.take (size.toNat - 1)).length = size.toNat - 1 := by rw [List.length_take]; omega
    have hline := LineEnds.after_bytes (hbefore (show size.toNat - 1 ≤ d by omega)) hlength.le (.limit hlength)
    rw [List.append_nil, show (s.contents.take (size.toNat - 1)).length + 1 = size.toNat by omega] at hline
    obtain ⟨t, ht, hclear, hdel⟩ := steps_only_rdline hi hc hovf hs hq (by omega) hline
      (List.take_append_drop ..).symm hturns
    have hstored : s.ch.delim ∈ s.contents.drop (size.toNat - 1) :=
      List.mem_iff_getElem?.2 ⟨d - (size.toNat - 1), by rw [List.getElem?_drop, ← hat]; congr 1; omega⟩
    exact ⟨t, ht, hclear, fun h0 => ⟨(hdel h0).cop, hlength ▸ (hdel h0).res, (hdel h0).out, (hdel h0).contents, hstored,
      (hdel h0).answers, (hdel h0).draws⟩⟩

end Sys2Proof.Machine
end
